-- ==== Sys2Proof/Config.lean ====
section
/-! DEFINITION. The numbers of 00_scope.md R5 and the tags of 30_encoding.md R80, each written once, and the
parameter the spec leaves open. The literals are the spec's and are unaudited (91_not_in_source.md N10, log entry 25). -/

namespace Sys2Proof

/-- `DECODE_MODE` (R5, R78, 92_eei_decisions.md D1): which widths the decoder reads. -/
inductive DecodeMode where
  | reference
  | unified
deriving DecidableEq, Repr

/-- `ASM_RANGE_POLICY` (R92, D9): what the assembler does with an operand too wide for its field. -/
inductive AsmRangePolicy where
  | strict
  | truncate
deriving DecidableEq, Repr

namespace Config

/-- The register slots (R5, R20). -/
def numRegs : Nat := 32
/-- The register width (R5). -/
def xlen : Nat := 32
/-- The width of every register-index field (R5, R21). -/
def regFieldBits : Nat := 3
/-- The data memory cells (R5, R25). -/
def memCells : Nat := 1024
/-- The width of a memory cell (R5). -/
def cellBits : Nat := 32
/-- The code word length in bits (R5, R70). -/
def wordBits : Nat := 48
/-- The code word size in bytes (R5, R70). -/
def wordBytes : Nat := 6
/-- The width of the tag (R5, R71). -/
def tagBits : Nat := 8
/-- The cells a trace snapshot shows (R38). -/
def traceCells : Nat := 16

/-- The value the spec takes for `DECODE_MODE` (R5, D1; log entry 1). DESIGN CHOICE of the spec, unsafe. -/
def decodeMode : DecodeMode := .reference

/-- The value the spec takes for `ASM_RANGE_POLICY` (R92, D9; log entry 18). DESIGN CHOICE of the spec. -/
def asmRangePolicy : AsmRangePolicy := .strict

/-- `TRACE_ON_SKIPPED` (R5, R184, D11; log entry 2): OPEN in the spec, so a constant with no body. Safe. -/
opaque traceOnSkipped : Bool

/-- The decode-side width of LOAD_CONSTANT's immediate, the `K` of R32 and R130 (R78). -/
def immBits : DecodeMode → Nat
  | .reference => 24
  | .unified => 26

/-- The decode-side width of BITWISE_OR's address, the `A` of R161 (R78). -/
def addrBits : DecodeMode → Nat
  | .reference => 21
  | .unified => 27

/-- 195 = 0xC3 (R80). -/
def tagLoadConstant : BitVec 8 := 0xC3
/-- 83 = 0x53 (R80). -/
def tagMemoryRead : BitVec 8 := 0x53
/-- 53 = 0x35 (R80). -/
def tagMemoryWrite : BitVec 8 := 0x35
/-- 74 = 0x4A (R80). -/
def tagBitwiseOr : BitVec 8 := 0x4A

end Config

end Sys2Proof
end

