-- ==== Sys2Proof/Word.lean ====
section
/-! DEFINITION. The word types (00_scope.md R5 and R7): every value of this hardware is an unsigned integer. -/

namespace Sys2Proof

/-- A byte of the instruction stream (R30). -/
abbrev Byte := BitVec 8

/-- A register slot or a memory cell: 32 bits, unsigned (R20, R25). -/
abbrev Word := BitVec 32

/-- A code word: 48 bits (R70). -/
abbrev CodeWord := BitVec 48

/-- The opcode tag: 8 bits (R71). -/
abbrev Tag := BitVec 8

/-- A register-index field: 3 bits, so `x[0]` to `x[7]` only (R21). -/
abbrev RegField := BitVec 3

end Sys2Proof
end

