-- ==== Sys2Proof/Syntax.lean ====
section
/-! DEFINITION. The decoded instruction: the "closed sum type with one variant per opcode carrying its typed fields" of
40_decode_dispatch.md R112. The fields B, C, D keep the spec's names and the encode-side widths of 30_encoding.md R72,
which hold a field of either decode mode, zero-extended where the mode reads fewer bits (log entry 23). -/

namespace Sys2Proof

/-- One constructor per row of spec/opcode_table.json. -/
inductive Instr where
  /-- `LOAD_CONSTANT R<b>, #<c>`: destination register `b`, unsigned immediate `c` (R130). -/
  | loadConstant (b : RegField) (c : BitVec 26)
  /-- `MEMORY_READ R<c>, [R<b>]`: base register `b`, destination register `c` (R142). -/
  | memoryRead (b : RegField) (c : RegField)
  /-- `MEMORY_WRITE [R<d> + <c>], R<b>`: source register `b`, unsigned offset `c`, base register `d` (R143). -/
  | memoryWrite (b : RegField) (c : BitVec 9) (d : RegField)
  /-- `OR R<b>, [<c>] | R<d>`: destination register `b`, absolute cell address `c`, source register `d` (R161). -/
  | bitwiseOr (b : RegField) (c : BitVec 27) (d : RegField)
deriving DecidableEq, Repr

end Sys2Proof
end

