-- ==== Sys2Proof/WellFormed.lean ====
section
/-! DEFINITION. Which instructions a decoder in a given mode can yield. The field types hold every encode-side bound of
30_encoding.md R72, so what is left to check is the two decode-side widths that depend on `DECODE_MODE` (R78). -/

namespace Sys2Proof

/-- `i` fits the decode-side widths of `mode` (R78): an immediate below `2^K`, an absolute address below `2^A`. -/
def Instr.wellFormed (mode : DecodeMode) : Instr → Bool
  | .loadConstant _ c => c.toNat < 2 ^ Config.immBits mode
  | .memoryRead _ _ => true
  | .memoryWrite _ _ _ => true
  | .bitwiseOr _ c _ => c.toNat < 2 ^ Config.addrBits mode

end Sys2Proof
end

