-- ==== Sys2Proof/Decode.lean ====
section
/-! DEFINITION. The decoder, total on any bytes, and after it the encoder. Both follow 30_encoding.md (R70 to R84) and
40_decode_dispatch.md (R110 to R114). -/

namespace Sys2Proof

/-! ## Bytes and words -/

/-- The unsigned number that bytes spell, least significant byte first (10_state.md R35). -/
def leNat : List Byte → Nat
  | [] => 0
  | b :: bs => b.toNat + 256 * leNat bs

/-- The code word of six stream bytes: the sum of `byte[k] * 2^(8k)` (R35). -/
def wordOfBytes (bs : List Byte) : CodeWord := BitVec.ofNat 48 (leNat bs)

/-- The six bytes of a code word in stream order: byte `k` holds bits `8k+7 : 8k` (20_memory.md R51). -/
def wordBytes (w : CodeWord) : List Byte :=
  [w.extractLsb' 0 8, w.extractLsb' 8 8, w.extractLsb' 16 8,
   w.extractLsb' 24 8, w.extractLsb' 32 8, w.extractLsb' 40 8]

/-! ## The fields of a code word (R71, R72, R78) -/

/-- Bits 7:0, the tag, whatever the opcode (R71). -/
def fieldTag (w : CodeWord) : Tag := w.extractLsb' 0 8

/-- Bits 10:8, field B of every opcode (R78). -/
def fieldB (w : CodeWord) : RegField := w.extractLsb' 8 3

/-- LOAD_CONSTANT's field C: `w[34:11]` or `w[36:11]`, by the mode, zero-extended (R78, R79). -/
def fieldImmediate (mode : DecodeMode) (w : CodeWord) : BitVec 26 :=
  (w.extractLsb' 11 (Config.immBits mode)).setWidth 26

/-- MEMORY_READ's field C: `w[13:11]` (R78). -/
def fieldDestination (w : CodeWord) : RegField := w.extractLsb' 11 3

/-- MEMORY_WRITE's field C: `w[19:11]` (R78). -/
def fieldOffset (w : CodeWord) : BitVec 9 := w.extractLsb' 11 9

/-- MEMORY_WRITE's field D: `w[22:20]` (R78). -/
def fieldBase (w : CodeWord) : RegField := w.extractLsb' 20 3

/-- BITWISE_OR's field C: `w[31:11]` or `w[37:11]`, by the mode, zero-extended (R78, R79). -/
def fieldAddress (mode : DecodeMode) (w : CodeWord) : BitVec 27 :=
  (w.extractLsb' 11 (Config.addrBits mode)).setWidth 27

/-- BITWISE_OR's field D: `w[40:38]` (R78). -/
def fieldSource (w : CodeWord) : RegField := w.extractLsb' 38 3

/-! ## The decoder -/

/-- Why bytes are no instruction. -/
inductive DecodeReject where
  /-- The tag is none of the four assigned ones: the decoder raises `InvalidOpcode` with the tag and the word (R114). -/
  | unassignedTag (tag : Tag) (word : CodeWord)
  /-- Fewer than six bytes are no code word (R117). -/
  | fragment (bytes : Nat)
deriving DecidableEq, Repr

/-- Dispatch on the tag alone, then field extraction, which cannot fail (R112, R113). Bits outside the tag and the
decode-side fields are not looked at (R81, log entry 3). -/
def decodeWord (mode : DecodeMode) (w : CodeWord) : Except DecodeReject Instr :=
  if fieldTag w = Config.tagLoadConstant then .ok (.loadConstant (fieldB w) (fieldImmediate mode w))
  else if fieldTag w = Config.tagMemoryRead then .ok (.memoryRead (fieldB w) (fieldDestination w))
  else if fieldTag w = Config.tagMemoryWrite then .ok (.memoryWrite (fieldB w) (fieldOffset w) (fieldBase w))
  else if fieldTag w = Config.tagBitwiseOr then
    .ok (.bitwiseOr (fieldB w) (fieldAddress mode w) (fieldSource w))
  else .error (.unassignedTag (fieldTag w) w)

/-- The next six bytes as one instruction (R83); the bytes after them are the rest of the stream. -/
def decodeBytes (mode : DecodeMode) (bs : List Byte) : Except DecodeReject Instr :=
  if bs.length < Config.wordBytes then .error (.fragment bs.length)
  else decodeWord mode (wordOfBytes (bs.take Config.wordBytes))

/-- The code word of an instruction given as spec/opcode_table.json numbers its bits: the low `nbits` bits of `w`, every
higher bit 0. -/
def tableWord (nbits w : Nat) : CodeWord := BitVec.ofNat 48 (w % 2 ^ nbits)

/-- The decoder's answer for that word, laid out as six stream bytes. -/
def decodeTableWord (nbits w : Nat) : Option Instr :=
  match decodeBytes Config.decodeMode (wordBytes (tableWord nbits w)) with
  | .ok i => some i
  | .error _ => none

/-! ## The encoder -/

/-- The tag of an instruction (R80). -/
def Instr.tag : Instr → Tag
  | .loadConstant _ _ => Config.tagLoadConstant
  | .memoryRead _ _ => Config.tagMemoryRead
  | .memoryWrite _ _ _ => Config.tagMemoryWrite
  | .bitwiseOr _ _ _ => Config.tagBitwiseOr

/-- The word of an instruction, bit 47 on the left, as R73 to R76 draw it. -/
def encode : Instr → CodeWord
  | .loadConstant b c => 0#11 ++ c ++ b ++ Config.tagLoadConstant
  | .memoryRead b c => 0#34 ++ c ++ b ++ Config.tagMemoryRead
  | .memoryWrite b c d => 0#25 ++ d ++ c ++ b ++ Config.tagMemoryWrite
  | .bitwiseOr b c d => 0#7 ++ d ++ c ++ b ++ Config.tagBitwiseOr

/-- The six bytes the assembler writes for an instruction (R70, R84). -/
def encodeBytes (i : Instr) : List Byte := wordBytes (encode i)

/-- The instruction that `mode` reads back from the word of `i`: the two mode-dependent fields cut to their decode-side
widths (R97). -/
def Instr.truncate (mode : DecodeMode) : Instr → Instr
  | .loadConstant b c => .loadConstant b (BitVec.ofNat 26 (c.toNat % 2 ^ Config.immBits mode))
  | .memoryRead b c => .memoryRead b c
  | .memoryWrite b c d => .memoryWrite b c d
  | .bitwiseOr b c d => .bitwiseOr b (BitVec.ofNat 27 (c.toNat % 2 ^ Config.addrBits mode)) d

end Sys2Proof
end

