-- ==== Sys2Proof/Machine/State.lean ====
section
/-! DEFINITION. The machine's state as plain data: the architectural state of 10_state.md R28 (`x`, `mem`, `pc`), the
instruction stream the fetch loop reads (R30), what the output ports have given (R36, R38) and the parameters of the run
(70_reset_and_hazards.md R203). -/

namespace Sys2Proof.Machine

/-- Why the machine stops. Neither reason is raised by an instruction: the block's conditions are no faults (60_exceptions.md
R174, R175), they are reports of a next state. -/
inductive Fault where
  /-- Raised by `step` when the stream position is at the end of the stream: no step is enabled and the run has ended
  normally (R116, log entry 6). Safe: it stops where the block takes no step. -/
  | endOfStream
  /-- Raised by `step` when the stream position is beyond the end of the stream, where R110 defines no step and no run
  from a booted state comes (log entry 7). Safe: it stops. -/
  | positionPastEnd
deriving DecidableEq, Repr

/-- Why the model gives no meaning. -/
inductive Refusal where
  /-- Raised by `exec` for an instruction with no meaning yet; no arm raises it. Safe: it stops. -/
  | notModelled (mnemonic : String)
  /-- Raised by `step` when 1 to 5 bytes of the stream remain, the spec's own refusal `StreamFragment` (R117, D5,
  log entry 5). Safe: it stops. -/
  | streamFragment
deriving DecidableEq, Repr

/-- The two conditions and what each records (60_exceptions.md R170 to R172, 92_eei_decisions.md D16, log entry 12). -/
inductive Condition where
  /-- `InvalidOpcode`: the tag and the word (R171). -/
  | invalidOpcode (tag : Tag) (word : CodeWord)
  /-- `OutOfBounds`: the tag, the decoded fields (D where the instruction has it) and the computed cell address, an exact
  integer (R172). -/
  | outOfBounds (tag : Tag) (b : RegField) (c : Nat) (d : Option RegField) (addr : Nat)
deriving DecidableEq, Repr

/-- What `cond_out` says of a finished step (R36). -/
inductive Report where
  | ok
  | raised (c : Condition)
deriving DecidableEq, Repr

/-- What `trace_out` gives after an executed instruction: the decoded instruction, all registers and `mem[0..15]` (R38).
A word with no decoded instruction has none (log entry 13). -/
structure TraceRecord where
  instr : Option Instr
  regs  : Vector Word 32
  cells : Vector Word 16
deriving DecidableEq, Repr

/-- The parameters of a run, which no step writes (R5, R203). -/
structure Params where
  decodeMode   : DecodeMode
  windowStart  : Int
  windowEnd    : Int
  verboseTrace : Bool
deriving DecidableEq, Repr

/-- The data memory: (cell index, cell) pairs in the canonical form of `Memory.wf`; the unit is the 32-bit cell, since a
cell has no byte addresses (20_memory.md R50, log entry 8). -/
abbrev Memory := List (Nat × Word)

structure State where
  /-- The register file, `x[0]` to `x[31]` (R20). -/
  x          : Vector Word 32
  /-- The data memory, `mem[0]` to `mem[1023]` (R25). -/
  mem        : Memory
  /-- The stream position, in code words, never wrapping (R26). -/
  pc         : Nat
  /-- The instruction stream, in bytes (R30). -/
  stream     : List Byte
  /-- The parameters of the run (R203). -/
  params     : Params
  /-- The report of the last finished step; none at reset (R33, R36). -/
  condOut    : Option Report
  /-- Every condition so far, oldest first (R36). -/
  conditions : List Condition
  /-- Every trace record so far, oldest first (R38). -/
  trace      : List TraceRecord
deriving DecidableEq, Repr

/-- The parameters at reset before a host has given any: the spec's `DECODE_MODE`, the whole memory as the window, the
trace off (log entries 1 and 10). DESIGN CHOICE. -/
def Params.initial : Params :=
  { decodeMode := Config.decodeMode, windowStart := 0, windowEnd := 1023, verboseTrace := false }

/-- The machine right after reset: registers, cells and stream position 0, no condition reported (R33, R200); the stream
is the host's to supply (R203, log entry 9). -/
def State.reset : State :=
  { x := Vector.replicate 32 0
    mem := []
    pc := 0
    stream := []
    params := Params.initial
    condOut := none
    conditions := []
    trace := [] }

end Sys2Proof.Machine
end

