-- ==== Sys2Proof/Machine/Ops.lean ====
section
/-! DEFINITION. The named operations over registers and memory, raising a condition, and ending a step. -/

namespace Sys2Proof.Machine

/-! ## The data memory -/

/-- What a cell that no pair lists reads as: the reset value of every cell (10_state.md R33, 20_memory.md R58). -/
def unlistedCell : Word := 0

/-- The value of cell `a`. Reading has no side effect (R54). -/
def Memory.read : Memory → Nat → Word
  | [], _ => unlistedCell
  | (k, v) :: m, a => if k = a then v else Memory.read m a

/-- `m` with `(a, v)` in front, or `m` itself when `v` is what an unlisted cell reads as. -/
def Memory.put (a : Nat) (v : Word) (m : Memory) : Memory :=
  if v = unlistedCell then m else (a, v) :: m

/-- The memory with cell `a` set to `v`, in canonical form. -/
def Memory.write : Memory → Nat → Word → Memory
  | [], a, v => Memory.put a v []
  | (k, u) :: m, a, v =>
    if a < k then Memory.put a v ((k, u) :: m)
    else if a = k then Memory.put a v m
    else (k, u) :: Memory.write m a v

/-- The canonical form: valid cell indices (R50), strictly rising, no listed cell equal to what an unlisted one reads as. -/
def Memory.wf : Memory → Bool
  | [] => true
  | (k, v) :: m =>
    decide (k < Config.memCells) && decide (v ≠ unlistedCell) && m.all (fun c => decide (k < c.1)) && Memory.wf m

/-- `MemRead(a, 1)` (00_scope.md R8). -/
def State.readCell (s : State) (a : Nat) : Word := s.mem.read a

/-- `MemWrite(a, 1, v)` (00_scope.md R8). -/
def State.writeCell (a : Nat) (v : Word) (s : State) : State := { s with mem := s.mem.write a v }

/-! ## The register file -/

/-- The slot a 3-bit field names: one of `x[0]` to `x[7]` (R21), so always a valid register index (40_decode_dispatch.md
R119, log entry 19). -/
def regSlot (r : RegField) : Fin 32 := ⟨r.toNat, Nat.lt_trans r.isLt (by decide)⟩

/-- `x[r]` (00_scope.md R8). No register is hardwired (10_state.md R22). -/
def State.readReg (s : State) (r : RegField) : Word := s.x[regSlot r]

/-- `x[r] <- v` (00_scope.md R8). -/
def State.writeReg (r : RegField) (v : Word) (s : State) : State := { s with x := s.x.set (regSlot r) v }

/-! ## Conditions -/

/-- `raise C(info)` (00_scope.md R9, 60_exceptions.md R174): the condition is reported and recorded, nothing is saved,
and nothing else changes; the step then ends as any other. There is no return from it (R179). -/
def State.raise (c : Condition) (s : State) : State :=
  { s with condOut := some (.raised c), conditions := s.conditions ++ [c] }

/-- `report OK if nothing was raised` (R110). -/
def State.reportOk (s : State) : State := { s with condOut := some .ok }

/-- The access controller (42_memory_access.md R141): the access to cell `a`, and with it all of the instruction's
effect, goes ahead only when `a` is a valid memory index; otherwise `info` is raised before any state write. -/
def State.access (a : Nat) (info : Condition) (effect : State → State) (s : State) : Host.Outcome State Fault Refusal :=
  if a < Config.memCells then .next (effect s).reportOk else .next (s.raise info)

/-! ## The end of a step -/

/-- A snapshot of all registers and the first 16 cells (R38). -/
def State.snapshot (i : Option Instr) (s : State) : TraceRecord :=
  { instr := i, regs := s.x, cells := Vector.ofFn fun k => s.readCell k.val }

/-- Whether the trace prints after this step: when it is on, after an executed instruction, and after a skipped word as
the open parameter says (R38, R184, log entry 2). -/
def State.traces (s : State) : Bool :=
  s.params.verboseTrace && (decide (s.condOut = some .ok) || Config.traceOnSkipped)

/-- `trace_out` after the step's effect (R38, log entry 22). -/
def State.emitTrace (i : Option Instr) (s : State) : State :=
  if s.traces then { s with trace := s.trace ++ [s.snapshot i] } else s

/-- `pc <- pc + 1` (R115). -/
def State.advance (s : State) : State := { s with pc := s.pc + 1 }

/-- The end of every step that fetched a word, whatever its outcome: trace, then advance (R110, R115). -/
def State.retire (i : Option Instr) (s : State) : State := (s.emitTrace i).advance

/-- The end of an instruction's arm in a step (R110). -/
def retireOutcome (i : Instr) : Host.Outcome State Fault Refusal → Host.Outcome State Fault Refusal
  | .next s => .next (s.retire (some i))
  | .fault r => .fault r
  | .refused r => .refused r

/-- A word with an unassigned tag: `InvalidOpcode` with the tag and the word, and the word is skipped (R114). -/
def State.skipWord (tag : Tag) (w : CodeWord) (s : State) : State := (s.raise (.invalidOpcode tag w)).retire none

end Sys2Proof.Machine
end

