-- ==== Sys2Proof/Machine/Operands.lean ====
section
/-! DEFINITION. Every operand form: the immediate (30_encoding.md R79) and the address generator's three forms
(42_memory_access.md R140). Addresses are exact integers (00_scope.md R10). -/

namespace Sys2Proof.Machine

/-- `zext_32(C)` (41_load_constant.md R130). -/
def immediate (c : BitVec 26) : Word := c.setWidth 32

/-- Register indirect: `a = x[B]` (R140). -/
def addrRegister (b : RegField) (s : State) : Nat := (s.readReg b).toNat

/-- Base plus offset: `a = x[D] + C`, an exact sum that does not wrap (R140, R144, log entry 4). -/
def addrBaseOffset (d : RegField) (c : BitVec 9) (s : State) : Nat := (s.readReg d).toNat + c.toNat

/-- Absolute: `a = C` (R140). -/
def addrAbsolute (c : BitVec 27) : Nat := c.toNat

end Sys2Proof.Machine
end

