-- ==== Sys2Proof/Machine/BitwiseOr.lean ====
section
/-! DEFINITION. The ALU and BITWISE_OR (43_bitwise_or.md). -/

namespace Sys2Proof.Machine

/-- The ALU's one operation: bit `i` of the result is 1 if bit `i` of either operand is (R160, log entry 14). -/
def aluOr (p q : Word) : Word := p ||| q

/-- `OutOfBounds` if `C >= 1024`; `x[B] <- x[D] | MemRead(C, 1)` (R161). -/
def execBitwiseOr (b : RegField) (c : BitVec 27) (d : RegField) (s : State) : Host.Outcome State Fault Refusal :=
  let a := addrAbsolute c
  s.access a (.outOfBounds Config.tagBitwiseOr b c.toNat (some d) a)
    (fun t => t.writeReg b (aluOr (t.readReg d) (t.readCell a)))

end Sys2Proof.Machine
end

