-- ==== Sys2Proof/Machine/LoadConstant.lean ====
section
/-! DEFINITION. LOAD_CONSTANT (41_load_constant.md). -/

namespace Sys2Proof.Machine

/-- `x[B] <- zext_32(C)`; no condition can be raised (R130, R118). -/
def execLoadConstant (b : RegField) (c : BitVec 26) (s : State) : Host.Outcome State Fault Refusal :=
  .next (s.writeReg b (immediate c)).reportOk

end Sys2Proof.Machine
end

