-- ==== Sys2Proof/Machine/MemoryAccess.lean ====
section
/-! DEFINITION. MEMORY_READ and MEMORY_WRITE (42_memory_access.md). -/

namespace Sys2Proof.Machine

/-- `a <- x[B]`; `OutOfBounds` if `a >= 1024`; `x[C] <- MemRead(a, 1)` (R142). -/
def execMemoryRead (b c : RegField) (s : State) : Host.Outcome State Fault Refusal :=
  let a := addrRegister b s
  s.access a (.outOfBounds Config.tagMemoryRead b c.toNat none a) (fun t => t.writeReg c (t.readCell a))

/-- `a <- x[D] + C`; `OutOfBounds` if `a >= 1024`; `MemWrite(a, 1, x[B])` (R143). -/
def execMemoryWrite (b : RegField) (c : BitVec 9) (d : RegField) (s : State) : Host.Outcome State Fault Refusal :=
  let a := addrBaseOffset d c s
  s.access a (.outOfBounds Config.tagMemoryWrite b c.toNat (some d) a) (fun t => t.writeCell a (t.readReg b))

end Sys2Proof.Machine
end

