-- ==== Sys2Proof/Machine/Dispatch.lean ====
section
/-! DEFINITION. The instruction's rule of each variant (40_decode_dispatch.md R110): what the arm does to the state and
what it reports. The advance of the stream position is the step's. -/

namespace Sys2Proof.Machine

def exec (i : Instr) (s : State) : Host.Outcome State Fault Refusal :=
  match i with
  | .loadConstant b c => Sys2Proof.Machine.execLoadConstant b c s
  | .memoryRead b c => Sys2Proof.Machine.execMemoryRead b c s
  | .memoryWrite b c d => Sys2Proof.Machine.execMemoryWrite b c d s
  | .bitwiseOr b c d => Sys2Proof.Machine.execBitwiseOr b c d s

end Sys2Proof.Machine
end

