-- ==== Sys2Proof/Machine/Fetch.lean ====
section
/-! DEFINITION. Fetch (40_decode_dispatch.md R110, R111, R116, R117): the instruction stream at the stream position. -/

namespace Sys2Proof.Machine

/-- What the fetch loop finds at the stream position. -/
inductive Fetched where
  /-- A whole code word. -/
  | word (w : CodeWord)
  /-- Exactly the end: no step is enabled (R116). -/
  | endOfStream
  /-- 1 to 5 bytes: no code word (R117). -/
  | fragment
  /-- Beyond the end, where no run comes (log entry 7). -/
  | pastEnd
deriving DecidableEq, Repr

/-- The byte offset of the next word, `6 * pc` (10_state.md R26). -/
def State.byteOffset (s : State) : Nat := Config.wordBytes * s.pc

/-- The tests of R110 in its order, and the word of R111. Fetch reads the stream only, never the data memory (R30). -/
def fetch (s : State) : Fetched :=
  if s.byteOffset = s.stream.length then .endOfStream
  else if s.stream.length < s.byteOffset then .pastEnd
  else if s.stream.length < s.byteOffset + Config.wordBytes then .fragment
  else .word (wordOfBytes ((s.stream.drop s.byteOffset).take Config.wordBytes))

/-- The stream with the bytes of `w` at byte offset `o`: what lies before and after stays, and a stream that does not
reach `o` is filled up with zero bytes (log entry 9). -/
def placeWord (w : CodeWord) (o : Nat) (stream : List Byte) : List Byte :=
  stream.take o ++ List.replicate (o - stream.length) 0 ++ wordBytes w ++ stream.drop (o + Config.wordBytes)

end Sys2Proof.Machine
end

