-- ==== Sys2Proof/Machine/StepWord.lean ====
section
/-! DEFINITION. What a step does with what it fetched (40_decode_dispatch.md R110). -/

namespace Sys2Proof.Machine

/-- Decode comes first (60_exceptions.md R176): a word with an unassigned tag is reported and skipped (R114), any other
runs its instruction's rule and retires (R115). -/
def stepWord (w : CodeWord) (s : State) : Host.Outcome State Fault Refusal :=
  match decodeWord s.params.decodeMode w with
  | .ok i => retireOutcome i (exec i s)
  | .error _ => .next (s.skipWord (fieldTag w) w)

/-- What a step does with what the fetch loop found (R110, R116, R117, log entries 5, 6 and 7). -/
def stepFetched (f : Fetched) (s : State) : Host.Outcome State Fault Refusal :=
  match f with
  | .word w => stepWord w s
  | .endOfStream => .fault .endOfStream
  | .fragment => .refused .streamFragment
  | .pastEnd => .fault .positionPastEnd

end Sys2Proof.Machine
end

