-- ==== Sys2Proof/Machine/Step.lean ====
section
/-! DEFINITION. One step: fetch, decode, execute, report, advance (40_decode_dispatch.md R110), atomic (10_state.md R39). -/

namespace Sys2Proof.Machine

def step (s : State) : Host.Outcome State Fault Refusal := stepFetched (fetch s) s

/-- `s` with the instruction of `decodeTableWord nbits w` at the stream position: the host's load of a stream (R203, log
entry 9). -/
def State.withFetchWord (s : State) (nbits w : Nat) : State :=
  { s with stream := placeWord (tableWord nbits w) s.byteOffset s.stream }

end Sys2Proof.Machine
end

