-- ==== Sys2Proof/Machine/Assembler.lean ====
section
/-! DEFINITION. The assembler, the toolchain reference of 30_encoding.md section 5 (R85 to R95). It is no hardware and no
step calls it (00_scope.md R4 (c)); it says which streams the spec's programs are. Log entries 16, 17, 18. -/

namespace Sys2Proof.Machine

/-- A token: a run of characters with no white space (R85). -/
abbrev Token := List Char

/-- White space: space, and the control characters 9 to 13, the line breaks among them (R85, log entry 16). PRESUMED. -/
def isSpaceChar (c : Char) : Bool := c.toNat == 32 || (9 ≤ c.toNat && c.toNat ≤ 13)

/-- A finished token, if it has a character. -/
def flushToken (cur : Token) : List Token := if cur = [] then [] else [cur]

/-- The tokens of a text, `cur` being the characters of the token being read. -/
def splitTokens : List Char → Token → List Token
  | [], cur => flushToken cur
  | c :: cs, cur => if isSpaceChar c then flushToken cur ++ splitTokens cs [] else splitTokens cs (cur ++ [c])

def tokenize (text : List Char) : List Token := splitTokens text []

/-! ## Operands (R90, R91, R92) -/

/-- `t` without the leading `p`, if it starts with it. -/
def stripPrefix : Token → Token → Option Token
  | [], t => some t
  | _ :: _, [] => none
  | p :: ps, c :: cs => if p = c then stripPrefix ps cs else none

/-- `t` without the trailing `p`, if it ends with it. -/
def stripSuffix (p t : Token) : Option Token := (stripPrefix p.reverse t.reverse).map List.reverse

def isDigitChar (c : Char) : Bool := 48 ≤ c.toNat && c.toNat ≤ 57

/-- The number that decimal digits spell (R91: numbers are decimal). -/
def digitsValue (digits : Token) : Nat := digits.foldl (fun acc c => 10 * acc + (c.toNat - 48)) 0

/-- Permissive leading-digit parsing: the value of the longest leading run of digits, what follows it ignored; no leading
digit is an error (R91). -/
def leadingNat (t : Token) : Option Nat :=
  match t.takeWhile isDigitChar with
  | [] => none
  | d :: ds => some (digitsValue (d :: ds))

/-- The number left in a token once its sigils and punctuation are removed by position (R90, R91). -/
def operandNat (lead trail : Token) (t : Token) : Option Nat :=
  ((stripPrefix lead t).bind (stripSuffix trail)).bind leadingNat

/-- The range policy: strict refuses a value that does not fit, truncate cuts it to the field (R92, D9). -/
def fitField (policy : AsmRangePolicy) (width v : Nat) : Option (BitVec width) :=
  match policy with
  | .strict => if v < 2 ^ width then some (BitVec.ofNat width v) else none
  | .truncate => some (BitVec.ofNat width v)

/-- One numeric operand resolved to its field. -/
def operandField (policy : AsmRangePolicy) (width : Nat) (lead trail t : Token) : Option (BitVec width) :=
  (operandNat lead trail t).bind (fitField policy width)

/-! ## The four forms (R85 to R89) -/

def mnemonicLoadConstant : Token := ['L', 'O', 'A', 'D', '_', 'C', 'O', 'N', 'S', 'T', 'A', 'N', 'T']
def mnemonicMemoryRead : Token := ['M', 'E', 'M', 'O', 'R', 'Y', '_', 'R', 'E', 'A', 'D']
def mnemonicMemoryWrite : Token := ['M', 'E', 'M', 'O', 'R', 'Y', '_', 'W', 'R', 'I', 'T', 'E']
def mnemonicOr : Token := ['O', 'R']

/-- The fixed number of operand tokens of a mnemonic; any other token is no mnemonic (R85, R90, R95). -/
def operandCount (m : Token) : Option Nat :=
  if m = mnemonicLoadConstant then some 2
  else if m = mnemonicMemoryRead then some 2
  else if m = mnemonicMemoryWrite then some 4
  else if m = mnemonicOr then some 4
  else none

/-- `LOAD_CONSTANT R<reg>, #<value>` (R86). -/
def parseLoadConstant (policy : AsmRangePolicy) : List Token → Option Instr
  | [reg, value] => do
    let b ← operandField policy 3 ['R'] [','] reg
    let c ← operandField policy 26 ['#'] [] value
    pure (.loadConstant b c)
  | _ => none

/-- `MEMORY_READ R<reg>, [R<base>]`: the destination is written first but is field C (R87). -/
def parseMemoryRead (policy : AsmRangePolicy) : List Token → Option Instr
  | [reg, base] => do
    let c ← operandField policy 3 ['R'] [','] reg
    let b ← operandField policy 3 ['[', 'R'] [']'] base
    pure (.memoryRead b c)
  | _ => none

/-- `MEMORY_WRITE [R<base> + <offset>], R<src>` (R88). -/
def parseMemoryWrite (policy : AsmRangePolicy) : List Token → Option Instr
  | [base, plus, offset, src] =>
    if plus = ['+'] then do
      let d ← operandField policy 3 ['[', 'R'] [] base
      let c ← operandField policy 9 [] [']', ','] offset
      let b ← operandField policy 3 ['R'] [] src
      pure (.memoryWrite b c d)
    else none
  | _ => none

/-- `OR R<dest>, [<address>] | R<src>` (R89). -/
def parseOr (policy : AsmRangePolicy) : List Token → Option Instr
  | [dest, address, bar, src] =>
    if bar = ['|'] then do
      let b ← operandField policy 3 ['R'] [','] dest
      let c ← operandField policy 27 ['['] [']'] address
      let d ← operandField policy 3 ['R'] [] src
      pure (.bitwiseOr b c d)
    else none
  | _ => none

/-- The instruction of a mnemonic and its operand tokens, or a syntax error. -/
def parseInstr (policy : AsmRangePolicy) (m : Token) (ops : List Token) : Option Instr :=
  if m = mnemonicLoadConstant then parseLoadConstant policy ops
  else if m = mnemonicMemoryRead then parseMemoryRead policy ops
  else if m = mnemonicMemoryWrite then parseMemoryWrite policy ops
  else if m = mnemonicOr then parseOr policy ops
  else none

/-! ## The pass over a source (R93, R94) -/

/-- What is reported at the first syntax error: the token that stands as the failing instruction's mnemonic, and the raw
tokens read for it (R93, log entry 17). -/
structure SyntaxError where
  instruction : Token
  rawTokens   : List Token
deriving DecidableEq, Repr

/-- The assembler's output: the binary, one log record per assembled instruction, and the error that stopped it, if
any (R93, R94). -/
structure AsmResult where
  binary : List Byte
  log    : List Instr
  error  : Option SyntaxError
deriving DecidableEq, Repr

def AsmResult.empty : AsmResult := { binary := [], log := [], error := none }

def AsmResult.failed (m : Token) (ops : List Token) : AsmResult :=
  { binary := [], log := [], error := some { instruction := m, rawTokens := m :: ops } }

/-- One whole word and one log record, then the rest. -/
def AsmResult.emit (i : Instr) (r : AsmResult) : AsmResult :=
  { r with binary := encodeBytes i ++ r.binary, log := i :: r.log }

/-- One instruction after another, stopping at the first syntax error with no word for it (R93); `fuel` bounds the number
of instructions. -/
def assembleTokens (policy : AsmRangePolicy) : Nat → List Token → AsmResult
  | _, [] => AsmResult.empty
  | 0, m :: _ => AsmResult.failed m []
  | fuel + 1, m :: rest =>
    match operandCount m with
    | none => AsmResult.failed m []
    | some n =>
      match parseInstr policy m (rest.take n) with
      | none => AsmResult.failed m (rest.take n)
      | some i => AsmResult.emit i (assembleTokens policy fuel (rest.drop n))

/-- The assembler on a source text; every instruction takes at least its mnemonic, so the fuel never runs out. -/
def assembleWith (policy : AsmRangePolicy) (text : List Char) : AsmResult :=
  let tokens := tokenize text
  assembleTokens policy tokens.length tokens

/-- The assembler with the range policy the spec picks (R92). -/
def assemble (text : List Char) : AsmResult := assembleWith Config.asmRangePolicy text

end Sys2Proof.Machine
end

