-- ==== Sys2Proof/Machine/Flags.lean ====
section
/-! DEFINITION. The block has no flags, condition codes or predicates (10_state.md R27). What reports the outcome of a
step in their place is `cond_out`, whose 2-bit codes are these (R36, 60_exceptions.md R170, log entry 12). -/

namespace Sys2Proof.Machine

/-- The code on `cond_out`: 0 `OK`, 1 `InvalidOpcode`, 2 `OutOfBounds`. -/
def Report.code : Report → BitVec 2
  | .ok => 0
  | .raised (.invalidOpcode _ _) => 1
  | .raised (.outOfBounds _ _ _ _ _) => 2

end Sys2Proof.Machine
end

