-- ==== Sys2Proof/Machine/Run.lean ====
section
/-! DEFINITION. A run and the host's part in it (70_reset_and_hazards.md R200 to R207). -/

namespace Sys2Proof.Machine

/-- What the host gives before the first step, and whether its files open (R203, log entry 20). -/
structure HostSetup where
  inputOpens  : Bool
  outputOpens : Bool
  stream      : List Byte
  params      : Params
deriving DecidableEq, Repr

/-- The state at the start of a run: the reset state with the host's stream and parameters (R200, R203, R207). -/
def boot (h : HostSetup) : State := { State.reset with stream := h.stream, params := h.params }

/-- If the input or the output fails to open, no run takes place and no state is reported (R203, R175). -/
def startRun (h : HostSetup) : Option State := if h.inputOpens && h.outputOpens then some (boot h) else none

/-- `host_mem`: the host's read of one cell; the port has no other index (10_state.md R37). -/
def hostMem (s : State) (i : Nat) : Option Word := if i < Config.memCells then some (s.readCell i) else none

/-- The first cell of the clamped window (R206; the bounds are integers, D18, log entry 21). -/
def windowFirst (p : Params) : Nat := p.windowStart.toNat

/-- The cell after the last one of the clamped window (R206). -/
def windowLimit (p : Params) : Nat := min Config.memCells (p.windowEnd + 1).toNat

/-- The result report: one record per cell of the clamped window, in ascending order, none if it is empty (R206). -/
def resultReport (s : State) : List (Nat × Word) :=
  (List.range' (windowFirst s.params) (windowLimit s.params - windowFirst s.params)).map fun i => (i, s.readCell i)

/-- The state after `k` steps, if `k` steps are enabled (R204). -/
def runSteps : Nat → State → Option State
  | 0, s => some s
  | k + 1, s =>
    match step s with
    | .next t => runSteps k t
    | .fault _ => none
    | .refused _ => none

/-- How a host's set-up ends (R203, R205). -/
inductive RunEnd where
  /-- A file failed to open: no run takes place and no state is reported (R203, R175). -/
  | aborted
  /-- The normal end: the final state and the result report. -/
  | finished (final : State) (report : List (Nat × Word))
  /-- A refusal: no final state. -/
  | refused (r : Refusal)
  /-- Steps are still enabled after the steps asked for. -/
  | unfinished
  /-- The position lies beyond the stream, which no run from a booted state reaches (log entry 7). -/
  | strayed
deriving DecidableEq, Repr

/-- At most `k` steps and then the end of the run, if it is reached. -/
def runFrom : Nat → State → RunEnd
  | k, s =>
    match step s with
    | .fault .endOfStream => .finished s (resultReport s)
    | .fault .positionPastEnd => .strayed
    | .refused r => .refused r
    | .next t =>
      match k with
      | 0 => .unfinished
      | k + 1 => runFrom k t

/-- The whole run of a host's set-up, if one takes place: `floor(L / 6)` steps are all there are (R203, R205, R210). -/
def runToEnd (h : HostSetup) : RunEnd :=
  match startRun h with
  | none => .aborted
  | some s => runFrom (h.stream.length / Config.wordBytes) s

end Sys2Proof.Machine
end

