-- ==== Sys2Proof/Safety.lean ====
section
/-! DEFINITION. What claims about the machine are stated in. -/

namespace Sys2Proof.Machine

/-- What holds of every state of a run: the memory is in canonical form and the stream position is not beyond the stream
(10_state.md R26, 20_memory.md R50). -/
def State.Sound (s : State) : Prop := s.mem.wf = true ∧ s.byteOffset ≤ s.stream.length

/-- The 24 slots that no instruction can name hold 0 (10_state.md R21). -/
def State.UpperSlotsZero (s : State) : Prop := ∀ k : Fin 32, 8 ≤ k.val → s.x[k] = 0

/-- Every register slot and every cell is below `2^K` (10_state.md R32). -/
def State.ValuesBelow (K : Nat) (s : State) : Prop :=
  (∀ k : Fin 32, s.x[k].toNat < 2 ^ K) ∧ ∀ a, (s.readCell a).toNat < 2 ^ K

/-- `t` has every register of `s` but perhaps slot `r`. -/
def OnlySlotChanges (r : RegField) (s t : State) : Prop := ∀ k : Fin 32, k ≠ regSlot r → t.x[k] = s.x[k]

/-- `t` has every cell of `s`. -/
def SameCells (s t : State) : Prop := ∀ a, t.readCell a = s.readCell a

/-- What no instruction's rule touches, the step's own advance and trace apart: stream position, stream, parameters,
trace. -/
def SameSurroundings (s t : State) : Prop :=
  t.pc = s.pc ∧ t.stream = s.stream ∧ t.params = s.params ∧ t.trace = s.trace

/-- The instruction raised nothing: `OK` is reported and the history stays (10_state.md R36). -/
def ReportsOk (s t : State) : Prop := t.condOut = some .ok ∧ t.conditions = s.conditions

/-- The instruction raised `c` and has no effect but the report (00_scope.md R9, 60_exceptions.md R174). -/
def OnlyRaises (c : Condition) (s t : State) : Prop :=
  t.x = s.x ∧ SameCells s t ∧ SameSurroundings s t ∧ t.condOut = some (.raised c) ∧
    t.conditions = s.conditions ++ [c]

/-- The two states agree on all that R122 lets a step depend on: the architectural state, the stream and the mode. -/
def SameMachine (s t : State) : Prop :=
  t.x = s.x ∧ t.mem = s.mem ∧ t.pc = s.pc ∧ t.stream = s.stream ∧ t.params.decodeMode = s.params.decodeMode

/-- The two states agree on all but the slots `x[8]` to `x[31]`. -/
def SameButUpperSlots (s t : State) : Prop :=
  (∀ r : RegField, t.readReg r = s.readReg r) ∧ t.mem = s.mem ∧ t.pc = s.pc ∧ t.stream = s.stream ∧
    t.params = s.params ∧ t.condOut = s.condOut ∧ t.conditions = s.conditions

/-- `v[hi:lo]`: the unsigned integer formed by bits `hi` down to `lo` (00_scope.md R6). -/
def bitSlice (w : CodeWord) (hi lo : Nat) : Nat := w.toNat / 2 ^ lo % 2 ^ (hi + 1 - lo)

/-- The four assigned tags (30_encoding.md R80). -/
def assignedTags : List Nat := [195, 83, 53, 74]

/-- The bits of a word with this tag that the decoder reads: the tag and the decode-side fields (30_encoding.md R78); the
others are "don't care" (R81). -/
def careBit (mode : DecodeMode) (tag : Tag) (k : Nat) : Bool :=
  if k < 8 then true
  else if tag = Config.tagLoadConstant then decide (k < 11 + Config.immBits mode)
  else if tag = Config.tagMemoryRead then decide (k < 14)
  else if tag = Config.tagMemoryWrite then decide (k < 23)
  else decide (k < 11 + Config.addrBits mode) || (decide (38 ≤ k) && decide (k < 41))

/-- The registers an instruction reads (10_state.md R23). -/
def readsRegs : Instr → List RegField
  | .loadConstant _ _ => []
  | .memoryRead b _ => [b]
  | .memoryWrite b _ d => [d, b]
  | .bitwiseOr _ _ d => [d]

/-- The register an instruction writes (10_state.md R23). -/
def writesReg : Instr → Option RegField
  | .loadConstant b _ => some b
  | .memoryRead _ c => some c
  | .memoryWrite _ _ _ => none
  | .bitwiseOr b _ _ => some b

/-- The cell address an instruction forms, by the address generator's table (42_memory_access.md R140). -/
def cellAddress (s : State) : Instr → Option Nat
  | .loadConstant _ _ => none
  | .memoryRead b _ => some (addrRegister b s)
  | .memoryWrite _ c d => some (addrBaseOffset d c s)
  | .bitwiseOr _ c _ => some (addrAbsolute c)

/-- The source text `LOAD_CONSTANT R<r>, #<v>` with decimal numbers (30_encoding.md R86). -/
def sourceLoadConstant (r v : Nat) : List Char :=
  mnemonicLoadConstant ++ [' ', 'R'] ++ Nat.toDigits 10 r ++ [',', ' ', '#'] ++ Nat.toDigits 10 v

/-- One instruction of a source text: its mnemonic token, its operand tokens, and the instruction they stand for
(30_encoding.md R85). -/
structure SourceInstr where
  mnemonic : Token
  operands : List Token
  instr    : Instr
deriving DecidableEq, Repr

/-- The tokens in the order of the text. -/
def SourceInstr.tokens (p : SourceInstr) : List Token := p.mnemonic :: p.operands

/-- The assembler resolves the tokens to the instruction. -/
def SourceInstr.Parses (policy : AsmRangePolicy) (p : SourceInstr) : Prop :=
  parseInstr policy p.mnemonic p.operands = some p.instr

/-- The store that the next step makes, if it makes one: the cell and the value (42_memory_access.md R143). -/
def storeOf (s : State) : Option (Nat × Word) :=
  match fetch s with
  | .word w =>
    match decodeWord s.params.decodeMode w with
    | .ok (.memoryWrite b c d) =>
      if addrBaseOffset d c s < Config.memCells then some (addrBaseOffset d c s, s.readReg b) else none
    | .ok (.loadConstant _ _) => none
    | .ok (.memoryRead _ _) => none
    | .ok (.bitwiseOr _ _ _) => none
    | .error _ => none
  | .endOfStream => none
  | .fragment => none
  | .pastEnd => none

/-- The stores of the next `k` steps, oldest first. -/
def storesInRun : Nat → State → List (Nat × Word)
  | 0, _ => []
  | k + 1, s =>
    (storeOf s).toList ++
      match step s with
      | .next t => storesInRun k t
      | .fault _ => []
      | .refused _ => []

/-- The value of the last store to cell `a`, or 0 if there is none (20_memory.md R58). -/
def lastStoreTo (a : Nat) (stores : List (Nat × Word)) : Word :=
  stores.foldl (fun v st => if st.1 = a then st.2 else v) 0

end Sys2Proof.Machine
end

