-- ==== Sys2Proof/Certificates/Slice0/Obligations.lean ====
section
/-! DEFINITION. The statements for the provers. Each docstring names the rule of spec/ it formalises, or says that it is
derived; OBLIGATIONS.json lists them. -/

open Sys2Proof Sys2Proof.Machine

/-! ## Reset -/

/-- R33: the reset values, in State.reset and at the start of every run. -/
def Obligations.ResetHoldsTheResetValues : Prop :=
  ∀ h : HostSetup, ∀ s ∈ [State.reset, boot h],
    (∀ k : Fin 32, s.x[k] = 0) ∧ (∀ a, s.readCell a = 0) ∧ s.pc = 0 ∧ s.condOut = none ∧ s.conditions = []

/-- Derived from R33 and R203: what every step keeps holds at the start of every run. -/
def Obligations.BootedStateMeetsTheInvariants : Prop :=
  ∀ h : HostSetup, ∀ s ∈ [State.reset, boot h],
    s.Sound ∧ s.UpperSlotsZero ∧ s.ValuesBelow (Config.immBits s.params.decodeMode)

/-! ## Encoding -/

/-- R84: the encoding function is the sum of the tag and the shifted fields, with the rule's two examples. -/
def Obligations.EncodedWordIsTheSumOfItsFields : Prop :=
  (∀ b c, (encode (.loadConstant b c)).toNat = 195 + b.toNat * 2 ^ 8 + c.toNat * 2 ^ 11) ∧
  (∀ b c, (encode (.memoryRead b c)).toNat = 83 + b.toNat * 2 ^ 8 + c.toNat * 2 ^ 11) ∧
  (∀ b c d, (encode (.memoryWrite b c d)).toNat =
    53 + b.toNat * 2 ^ 8 + c.toNat * 2 ^ 11 + d.toNat * 2 ^ 20) ∧
  (∀ b c d, (encode (.bitwiseOr b c d)).toNat =
    74 + b.toNat * 2 ^ 8 + c.toNat * 2 ^ 11 + d.toNat * 2 ^ 38) ∧
  encode (.loadConstant 4 187) = 0x5DCC3#48 ∧
  encodeBytes (.loadConstant 4 187) = [0xC3, 0xDC, 0x05, 0x00, 0x00, 0x00] ∧
  encode (.memoryWrite 6 144 1) = 0x148635#48 ∧
  encodeBytes (.memoryWrite 6 144 1) = [0x35, 0x86, 0x14, 0x00, 0x00, 0x00]

/-- R96: decoding an encoded instruction at the encode-side widths (the widths Unified mode reads) gives it back, every
field at every value its encode-side width holds. -/
def Obligations.DecodeOfEncodeGivesTheInstructionBack : Prop :=
  ∀ i : Instr, decodeWord .unified (encode i) = .ok i ∧ decodeBytes .unified (encodeBytes i) = .ok i

/-- Derived (R97 is marked derived in the spec): each mode reads the two long fields back modulo their decode-side
widths, so exactly the instructions well formed in that mode come back whole; `decodeTableWord` agrees. -/
def Obligations.DecodeOfEncodeTruncatesToTheMode : Prop :=
  (∀ mode (i : Instr), decodeWord mode (encode i) = .ok (i.truncate mode)) ∧
  (∀ mode (i : Instr), i.truncate mode = i ↔ i.wellFormed mode = true) ∧
  (∀ i : Instr, i.wellFormed Config.decodeMode = true → decodeTableWord 48 (encode i).toNat = some i)

/-- Derived from R77, whose last sentence is the spec's own choice D2 (log entry 3): the bits above the last encode-side
field are 0 in every encoded word, and the decoder does not check them: a word with an assigned tag decodes whatever its
other bits. -/
def Obligations.EncodedWordIsZeroAboveItsFields : Prop :=
  (∀ b c k, 37 ≤ k → (encode (.loadConstant b c)).getLsbD k = false) ∧
  (∀ b c k, 14 ≤ k → (encode (.memoryRead b c)).getLsbD k = false) ∧
  (∀ b c d k, 23 ≤ k → (encode (.memoryWrite b c d)).getLsbD k = false) ∧
  (∀ b c d k, 41 ≤ k → (encode (.bitwiseOr b c d)).getLsbD k = false) ∧
  (∀ mode w, bitSlice w 7 0 ∈ assignedTags → ∃ i, decodeWord mode w = .ok i)

/-- Derived: in each mode, the encoding of what a word decodes to is the word with its don't-care bits of that mode
cleared, so a word whose don't-care bits are 0 is given back. -/
def Obligations.EncodeOfDecodeGivesTheWordBack : Prop :=
  ∀ mode w i, decodeWord mode w = .ok i →
    (∀ k, (encode i).getLsbD k = (careBit mode (fieldTag w) k && w.getLsbD k)) ∧
    ((∀ k, careBit mode (fieldTag w) k = false → w.getLsbD k = false) → encode i = w)

/-- Derived, and the spec's own choice D2 (log entry 3): two words of one assigned tag that agree on the tag and the
decode-side fields decode alike, so a word executes as if its don't-care bits were 0. -/
def Obligations.DontCareBitsAreIgnored : Prop :=
  ∀ mode w v, bitSlice w 7 0 ∈ assignedTags →
    (∀ k, k < 48 → careBit mode (fieldTag w) k = true → v.getLsbD k = w.getLsbD k) →
    decodeWord mode v = decodeWord mode w

/-- Derived: what a mode decodes is well formed in that mode. -/
def Obligations.DecodedInstructionFitsItsMode : Prop :=
  ∀ mode w i, decodeWord mode w = .ok i → i.wellFormed mode = true

/-- R80: the tag selects the instruction, four of its 256 values are assigned, and a word with any other tag raises
`InvalidOpcode` and is skipped. -/
def Obligations.TheTagSelectsTheInstruction : Prop :=
  (∀ mode w, bitSlice w 7 0 = 195 → ∃ b c, decodeWord mode w = .ok (.loadConstant b c)) ∧
  (∀ mode w, bitSlice w 7 0 = 83 → ∃ b c, decodeWord mode w = .ok (.memoryRead b c)) ∧
  (∀ mode w, bitSlice w 7 0 = 53 → ∃ b c d, decodeWord mode w = .ok (.memoryWrite b c d)) ∧
  (∀ mode w, bitSlice w 7 0 = 74 → ∃ b c d, decodeWord mode w = .ok (.bitwiseOr b c d)) ∧
  assignedTags.length = 4 ∧ assignedTags.Nodup ∧ (∀ n ∈ assignedTags, n < 256) ∧
  (∀ s w, fetch s = .word w → bitSlice w 7 0 ∉ assignedTags →
    ∃ t, step s = .next t ∧ t.condOut = some (.raised (.invalidOpcode (w.extractLsb' 0 8) w)) ∧
      t.x = s.x ∧ SameCells s t ∧ t.pc = s.pc + 1)

/-- R35: the word is the sum of the six stream bytes at byte offset `6 * pc`, least significant byte first. -/
def Obligations.FetchedWordIsLittleEndian : Prop :=
  ∀ s, 6 * s.pc + 6 ≤ s.stream.length → ∃ w, fetch s = .word w ∧
    w.toNat = (s.stream.getD (6 * s.pc) 0).toNat + (s.stream.getD (6 * s.pc + 1) 0).toNat * 2 ^ 8 +
      (s.stream.getD (6 * s.pc + 2) 0).toNat * 2 ^ 16 + (s.stream.getD (6 * s.pc + 3) 0).toNat * 2 ^ 24 +
      (s.stream.getD (6 * s.pc + 4) 0).toNat * 2 ^ 32 + (s.stream.getD (6 * s.pc + 5) 0).toNat * 2 ^ 40

/-- Derived from R51: byte `k` of a word holds its bits `8k+7 : 8k`, and six bytes and a word determine each other. -/
def Obligations.BytesAndWordsDetermineEachOther : Prop :=
  (∀ w, (wordBytes w).map BitVec.toNat = (List.range 6).map fun k => bitSlice w (8 * k + 7) (8 * k)) ∧
  (∀ w, wordOfBytes (wordBytes w) = w) ∧
  (∀ bs, bs.length = 6 → wordBytes (wordOfBytes bs) = bs)

/-- Derived, a sanity statement: words written out from the encodings of R73 to R76 decode to what they stand for (the
examples of R86 to R89 and vector V49). -/
def Obligations.SpecWordsDecodeAsWritten : Prop :=
  (∀ mode, decodeBytes mode [0xC3, 0xDC, 0x05, 0x00, 0x00, 0x00] = .ok (.loadConstant 4 187)) ∧
  (∀ mode, decodeBytes mode [0x53, 0x1D, 0x00, 0x00, 0x00, 0x00] = .ok (.memoryRead 5 3)) ∧
  (∀ mode, decodeBytes mode [0x35, 0x86, 0x14, 0x00, 0x00, 0x00] = .ok (.memoryWrite 6 144 1)) ∧
  (∀ mode, decodeBytes mode [0x4A, 0x22, 0x03, 0x00, 0x40, 0x00] = .ok (.bitwiseOr 2 100 1)) ∧
  decodeBytes .reference [0x4A, 0x2B, 0x00, 0x00, 0x01, 0x01] = .ok (.bitwiseOr 3 5 4) ∧
  decodeBytes .unified [0x4A, 0x2B, 0x00, 0x00, 0x01, 0x01] = .ok (.bitwiseOr 3 2097157 4)

/-! ## The step -/

/-- Derived from R110: when the six bytes at the stream position decode to an instruction, the step is that instruction's
`exec`, then the trace and `pc <- pc + 1`, which leave everything else as `exec` left it. -/
def Obligations.StepRunsTheDecodedInstruction : Prop :=
  ∀ s i, 6 * s.pc + 6 ≤ s.stream.length →
    decodeBytes s.params.decodeMode (s.stream.drop (6 * s.pc)) = .ok i →
    step s = retireOutcome i (exec i s) ∧
    (∀ u, exec i s = .next u → step s = .next (u.retire (some i))) ∧
    (∀ u : State, (u.retire (some i)).pc = u.pc + 1 ∧ (u.retire (some i)).x = u.x ∧ (u.retire (some i)).mem = u.mem ∧
      (u.retire (some i)).stream = u.stream ∧ (u.retire (some i)).params = u.params ∧
      (u.retire (some i)).condOut = u.condOut ∧ (u.retire (some i)).conditions = u.conditions)

/-- R115: every step that fetches a word ends with `pc <- pc + 1`, six bytes on, whatever its outcome. -/
def Obligations.EveryFetchedWordAdvancesThePosition : Prop :=
  ∀ s w, fetch s = .word w →
    ∃ t, step s = .next t ∧ t.pc = s.pc + 1 ∧ t.byteOffset = s.byteOffset + 6 ∧ t.stream = s.stream

/-- R116: at the end of the stream no step is enabled, and the run of a stream of length 0 ends at once, in the state it
started in. -/
def Obligations.NoStepAtTheEndOfTheStream : Prop :=
  (∀ s, 6 * s.pc = s.stream.length → ∀ t, step s ≠ .next t) ∧
  (∀ h s, startRun h = some s → h.stream = [] → runToEnd h = .finished s (resultReport s))

/-- Derived, the spec's own choice D5 (log entry 5): 1 to 5 remaining bytes are refused, and that refusal is raised
nowhere else. -/
def Obligations.TrailingFragmentIsRefused : Prop :=
  ∀ s, step s = .refused .streamFragment ↔ 6 * s.pc < s.stream.length ∧ s.stream.length < 6 * s.pc + 6

/-- Derived: a step answers a next state exactly when a whole word remains; its only refusal is that of a fragment, and
in a sound state its only stop is the end of the stream (the model's own choice, log entry 6). -/
def Obligations.StepGoesOnWhileAWholeWordRemains : Prop :=
  ∀ s, ((∃ t, step s = .next t) ↔ 6 * s.pc + 6 ≤ s.stream.length) ∧
    (∀ r, step s = .refused r → r = .streamFragment) ∧
    (s.Sound → ∀ r, step s = .fault r ↔ r = .endOfStream ∧ 6 * s.pc = s.stream.length)

/-- Derived from R203 (log entry 9): a word placed at the stream position is the word the next step fetches. -/
def Obligations.PlacedWordIsFetchedNext : Prop :=
  ∀ (s : State) (w : Nat), w < 2 ^ 48 → fetch (s.withFetchWord 48 w) = .word (BitVec.ofNat 48 w) ∧
    (s.withFetchWord 48 w).pc = s.pc ∧ (s.withFetchWord 48 w).x = s.x ∧ (s.withFetchWord 48 w).mem = s.mem

/-! ## The instructions -/

/-- R130: LOAD_CONSTANT. Its word, in either mode; its effect, for every register and every immediate; no condition. -/
def Obligations.LoadConstantWritesItsImmediate : Prop :=
  (∀ mode w, bitSlice w 7 0 = 195 → ∃ b c, decodeWord mode w = .ok (.loadConstant b c) ∧
    b.toNat = bitSlice w 10 8 ∧
    c.toNat = (match mode with | .reference => bitSlice w 34 11 | .unified => bitSlice w 36 11)) ∧
  (∀ b c s, ∃ t, exec (.loadConstant b c) s = .next t ∧ (t.readReg b).toNat = c.toNat ∧
    OnlySlotChanges b s t ∧ SameCells s t ∧ SameSurroundings s t ∧ ReportsOk s t)

/-- R142: MEMORY_READ. Its word; its effect where the address is a valid cell; the condition everywhere else. The value
read and the address are those from before the write, `B = C` too. -/
def Obligations.MemoryReadCopiesTheAddressedCell : Prop :=
  (∀ mode w, bitSlice w 7 0 = 83 → ∃ b c, decodeWord mode w = .ok (.memoryRead b c) ∧
    b.toNat = bitSlice w 10 8 ∧ c.toNat = bitSlice w 13 11) ∧
  (∀ b c s, (s.readReg b).toNat < 1024 → ∃ t, exec (.memoryRead b c) s = .next t ∧
    t.readReg c = s.readCell (s.readReg b).toNat ∧
    OnlySlotChanges c s t ∧ SameCells s t ∧ SameSurroundings s t ∧ ReportsOk s t) ∧
  (∀ b c s, 1024 ≤ (s.readReg b).toNat → ∃ t, exec (.memoryRead b c) s = .next t ∧
    OnlyRaises (.outOfBounds 83 b c.toNat none (s.readReg b).toNat) s t)

/-- Derived, since the exact sum is the spec's own choice D4 (log entry 4): MEMORY_WRITE as R143 gives it. Its word; the
store where `x[D] + C` is a valid cell, with every register and every other cell as before; the condition elsewhere. The
memory is in canonical form, an invariant of the model. -/
def Obligations.MemoryWriteStoresTheSourceRegister : Prop :=
  (∀ mode w, bitSlice w 7 0 = 53 → ∃ b c d, decodeWord mode w = .ok (.memoryWrite b c d) ∧
    b.toNat = bitSlice w 10 8 ∧ c.toNat = bitSlice w 19 11 ∧ d.toNat = bitSlice w 22 20) ∧
  (∀ b c d s, s.mem.wf = true → (s.readReg d).toNat + c.toNat < 1024 →
    ∃ t, exec (.memoryWrite b c d) s = .next t ∧
    t.readCell (addrBaseOffset d c s) = s.readReg b ∧ addrBaseOffset d c s = (s.readReg d).toNat + c.toNat ∧
    (∀ a, a ≠ addrBaseOffset d c s → t.readCell a = s.readCell a) ∧
    t.x = s.x ∧ SameSurroundings s t ∧ ReportsOk s t) ∧
  (∀ b c d s, 1024 ≤ (s.readReg d).toNat + c.toNat → ∃ t, exec (.memoryWrite b c d) s = .next t ∧
    OnlyRaises (.outOfBounds 53 b c.toNat (some d) ((s.readReg d).toNat + c.toNat)) s t)

/-- Derived, since the bit-by-bit meaning of the or is from general knowledge (R160, G1; log entry 14, PRESUMED):
BITWISE_OR as R161 gives it. Its word, in either mode; its effect where the decoded address is a valid cell, bit by bit;
the condition elsewhere. The values read are those from before the write, `B = D` too. -/
def Obligations.BitwiseOrWritesTheOr : Prop :=
  (∀ mode w, bitSlice w 7 0 = 74 → ∃ b c d, decodeWord mode w = .ok (.bitwiseOr b c d) ∧
    b.toNat = bitSlice w 10 8 ∧ d.toNat = bitSlice w 40 38 ∧
    c.toNat = (match mode with | .reference => bitSlice w 31 11 | .unified => bitSlice w 37 11)) ∧
  (∀ b c d s, c.toNat < 1024 → ∃ t, exec (.bitwiseOr b c d) s = .next t ∧
    (∀ k, (t.readReg b).getLsbD k = ((s.readReg d).getLsbD k || (s.readCell c.toNat).getLsbD k)) ∧
    OnlySlotChanges b s t ∧ SameCells s t ∧ SameSurroundings s t ∧ ReportsOk s t) ∧
  (∀ b c d s, 1024 ≤ c.toNat → ∃ t, exec (.bitwiseOr b c d) s = .next t ∧
    OnlyRaises (.outOfBounds 74 b c.toNat (some d) c.toNat) s t)

/-- Derived (R160 rests on general knowledge, log entry 14; R162 is marked derived): the ALU's operation bit by bit, and
its laws. -/
def Obligations.AluOrHasTheLawsOfOr : Prop :=
  (∀ p q i, (aluOr p q).getLsbD i = (p.getLsbD i || q.getLsbD i)) ∧
  (∀ p q, aluOr p q = aluOr q p) ∧ (∀ p q r, aluOr (aluOr p q) r = aluOr p (aluOr q r)) ∧
  (∀ p, aluOr p p = p ∧ aluOr p 0 = p ∧ aluOr p 0xFFFFFFFF = 0xFFFFFFFF) ∧
  (∀ p q, max p.toNat q.toNat ≤ (aluOr p q).toNat) ∧
  (∀ p q K, p.toNat < 2 ^ K → q.toNat < 2 ^ K → (aluOr p q).toNat < 2 ^ K)

/-- R23: the table of register reads and writes. A register outside the table's write keeps its value, none is written
when a condition is raised, and what an instruction does depends on no register outside the table's reads; and every entry
of the table is one: for an instruction that completes at all (a BITWISE_OR with an address beyond the memory never does),
the table's write changes its register in some state, and each of the table's reads makes a difference in some state. -/
def Obligations.InstructionsReadAndWriteTheirRegistersOnly : Prop :=
  (∀ i s, ∃ t, exec i s = .next t ∧
    (∀ k : Fin 32, (∀ r, writesReg i = some r → k ≠ regSlot r) → t.x[k] = s.x[k]) ∧
    (t.condOut ≠ some .ok → t.x = s.x)) ∧
  (∀ i s u t v, exec i s = .next t → exec i u = .next v →
    (∀ r ∈ readsRegs i, u.readReg r = s.readReg r) → u.mem = s.mem →
    v.condOut = t.condOut ∧ v.mem = t.mem ∧
    (t.condOut = some .ok → ∀ r, writesReg i = some r → v.readReg r = t.readReg r)) ∧
  (∀ i, (∃ s t, exec i s = .next t ∧ t.condOut = some .ok) →
    (∀ r, writesReg i = some r → ∃ s t, exec i s = .next t ∧ t.readReg r ≠ s.readReg r) ∧
    (∀ r ∈ readsRegs i, ∃ (s : State) (n : Word) (t v : State),
      exec i s = .next t ∧ exec i (s.writeReg r n) = .next v ∧
      (v.condOut ≠ t.condOut ∨ (∃ a, v.readCell a ≠ t.readCell a) ∨
        ∃ q, writesReg i = some q ∧ v.readReg q ≠ t.readReg q)))

/-- R131 is marked derived in the spec: executing the word of `LOAD_CONSTANT R<r>, #<v>` sets `x[r]` to `v` modulo
`2^K` and changes nothing else of the architectural state but the position. -/
def Obligations.LoadConstantWordLoadsTheTruncatedImmediate : Prop :=
  ∀ s r v, fetch s = .word (encode (.loadConstant r v)) → ∃ t, step s = .next t ∧
    (t.readReg r).toNat = v.toNat % 2 ^ Config.immBits s.params.decodeMode ∧
    OnlySlotChanges r s t ∧ SameCells s t ∧ t.pc = s.pc + 1

/-! ## Addresses and conditions -/

/-- R141, with the addresses of R140: the access goes ahead exactly when the address is a valid memory index; otherwise
`OutOfBounds` is raised, with that address, and the instruction has no effect. -/
def Obligations.AccessGoesAheadExactlyOnValidCells : Prop :=
  ∀ i s a, cellAddress s i = some a → ∃ t, exec i s = .next t ∧ (a < 1024 ↔ t.condOut = some .ok) ∧
    (1024 ≤ a → ∃ b c d, OnlyRaises (.outOfBounds i.tag b c d a) s t)

/-- R114: an unassigned tag raises `InvalidOpcode` with the tag and the word; no register and no cell changes, and the
position advances as usual. -/
def Obligations.UnassignedTagIsReportedAndSkipped : Prop :=
  ∀ s w, fetch s = .word w → bitSlice w 7 0 ∉ assignedTags →
    ∃ t, step s = .next t ∧ t.condOut = some (.raised (.invalidOpcode (w.extractLsb' 0 8) w)) ∧
      t.conditions = s.conditions ++ [.invalidOpcode (w.extractLsb' 0 8) w] ∧
      t.x = s.x ∧ SameCells s t ∧ t.pc = s.pc + 1

/-- R174: a condition is no trap. When a step raises one, the state after it is the state before it but for the position
and the report. -/
def Obligations.AConditionChangesOnlyThePosition : Prop :=
  ∀ s t c, step s = .next t → t.condOut = some (.raised c) →
    t.x = s.x ∧ t.mem = s.mem ∧ t.stream = s.stream ∧ t.params = s.params ∧ t.pc = s.pc + 1 ∧
      t.conditions = s.conditions ++ [c]

/-- Derived (the codes are the spec's own choice D3, log entry 12): which code `cond_out` gives, from R171 and R172. -/
def Obligations.ReportCodesFollowTheirCauses : Prop :=
  ∀ s w, fetch s = .word w → ∃ t r, step s = .next t ∧ t.condOut = some r ∧
    (r.code = 1 ↔ bitSlice w 7 0 ∉ assignedTags) ∧
    (r.code = 2 ↔ ∃ i a, decodeWord s.params.decodeMode w = .ok i ∧ cellAddress s i = some a ∧ 1024 ≤ a) ∧
    (r.code = 0 ↔ r = .ok)

/-- Derived from R36 and R176: the history is append-only and grows by the condition of the step, if it raised one. -/
def Obligations.HistoryGrowsByTheStepsCondition : Prop :=
  ∀ s t, step s = .next t →
    (t.condOut = some .ok ∧ t.conditions = s.conditions) ∨
    (∃ c, t.condOut = some (.raised c) ∧ t.conditions = s.conditions ++ [c])

/-! ## Memory -/

/-- Derived from R23, R52 and R60: a step changes at most one cell, and only a MEMORY_WRITE whose address is valid changes
one, to the value it stores. -/
def Obligations.OnlyMemoryWriteChangesACell : Prop :=
  ∀ s t, s.mem.wf = true → step s = .next t →
    ∀ a, t.readCell a = (match storeOf s with | some (b, v) => if b = a then v else s.readCell a | none => s.readCell a)

/-- R58: after any number of steps from the start of a run, every cell holds the value of the most recent store to it in
stream order, or 0 if there was none; and that is what a read returns. -/
def Obligations.ReadsReturnTheMostRecentStore : Prop :=
  ∀ h k s, runSteps k (boot h) = some s →
    (∀ a, s.readCell a = lastStoreTo a (storesInRun k (boot h))) ∧
    (∀ b c w t, fetch s = .word w → decodeWord s.params.decodeMode w = .ok (.memoryRead b c) →
      step s = .next t → (s.readReg b).toNat < 1024 →
      t.readReg c = lastStoreTo (s.readReg b).toNat (storesInRun k (boot h))) ∧
    (∀ b c d w t, fetch s = .word w → decodeWord s.params.decodeMode w = .ok (.bitwiseOr b c d) →
      step s = .next t → c.toNat < 1024 →
      t.readReg b = aluOr (s.readReg d) (lastStoreTo c.toNat (storesInRun k (boot h))))

/-- R61: stores never reach fetch. The fetch does not read the data memory, and no step writes the stream. -/
def Obligations.StoresNeverReachFetch : Prop :=
  (∀ (s : State) (m : Memory), fetch { s with mem := m } = fetch s) ∧
  (∀ s t, step s = .next t → t.stream = s.stream ∧
    ∀ n, fetch { t with pc := n } = fetch { s with pc := n })

/-! ## Invariants and whole-machine rules -/

/-- Derived from R26 and R50: every step keeps the memory's canonical form (so equal memories are equal data, and no cell
beyond 1023 is ever listed) and keeps the position within the stream. -/
def Obligations.EveryStepKeepsTheStateSound : Prop :=
  ∀ s t, s.Sound → step s = .next t → t.Sound

/-- Derived (R32 is marked derived in the spec): every step keeps all registers and cells below `2^K`, with `K` that of
the mode, and the mode stays; and then the sum of R143 is at most `2^K - 1 + 511`. -/
def Obligations.EveryStepKeepsValuesBelowTheBound : Prop :=
  (∀ s t, s.Sound → s.ValuesBelow (Config.immBits s.params.decodeMode) → step s = .next t →
    t.ValuesBelow (Config.immBits t.params.decodeMode) ∧ t.params = s.params) ∧
  (∀ (s : State) d c, s.ValuesBelow (Config.immBits s.params.decodeMode) →
    addrBaseOffset d c s ≤ 2 ^ Config.immBits s.params.decodeMode - 1 + 511)

/-- Derived (R144 marks it so): under the bound of R32 a sum that wrapped modulo `2^32` would be the exact sum. -/
def Obligations.WrappingAndExactSumAgreeUnderTheBound : Prop :=
  ∀ (s : State) d (c : BitVec 9), s.ValuesBelow (Config.immBits s.params.decodeMode) →
    (s.readReg d + c.setWidth 32).toNat = addrBaseOffset d c s

/-- R21: no step writes `x[8]` to `x[31]`, no step's effect depends on them (the trace apart), and they hold 0 for the
whole of every run. -/
def Obligations.UpperSlotsAreOutOfReach : Prop :=
  (∀ s t, step s = .next t → ∀ k : Fin 32, 8 ≤ k.val → t.x[k] = s.x[k]) ∧
  (∀ s u t, SameButUpperSlots s u → step s = .next t → ∃ v, step u = .next v ∧ SameButUpperSlots t v) ∧
  (∀ h k t, runSteps k (boot h) = some t → t.UpperSlotsZero)

/-- R122: the next state and the reported condition depend only on the current state, the stream and the mode: not on
the window, the trace toggle, the history or earlier reports; and the same stream in the same mode always ends alike. -/
def Obligations.StepDependsOnlyOnStateStreamAndMode : Prop :=
  (∀ s u, SameMachine s u →
    (∀ t, step s = .next t → ∃ v, step u = .next v ∧ SameMachine t v ∧ v.condOut = t.condOut) ∧
    (∀ r, step s = .fault r → step u = .fault r) ∧ (∀ r, step s = .refused r → step u = .refused r)) ∧
  (∀ h g : HostSetup, g.stream = h.stream → g.params.decodeMode = h.params.decodeMode →
    ∀ k t, runSteps k (boot h) = some t →
      ∃ v, runSteps k (boot g) = some v ∧ SameMachine t v ∧ v.condOut = t.condOut ∧ v.conditions = t.conditions)

/-- Derived from R38, since that the snapshot is taken after the instruction's writes is the model's reading (log entry 22,
DEDUCED): the verbose trace. Off, it gives nothing; on, after every executed instruction it gives the decoded instruction,
all registers and the first 16 cells as the instruction left them; after a skipped word it gives at most one record, for
either value of `TRACE_ON_SKIPPED` (log entry 2); and it writes no state. -/
def Obligations.TraceShowsEveryExecutedInstruction : Prop :=
  (∀ s t, s.params.verboseTrace = false → step s = .next t → t.trace = s.trace) ∧
  (∀ s t, s.params.verboseTrace = true → step s = .next t → t.condOut = some .ok →
    ∃ w i r, fetch s = .word w ∧ decodeWord s.params.decodeMode w = .ok i ∧ t.trace = s.trace ++ [r] ∧
      r.instr = some i ∧ r.regs = t.x ∧ ∀ k : Fin 16, r.cells[k] = t.readCell k.val) ∧
  (∀ s t, step s = .next t → t.condOut ≠ some .ok → t.trace = s.trace ∨ ∃ r, t.trace = s.trace ++ [r]) ∧
  (∀ (s : State) on t, step s = .next t →
    ∃ v, step { s with params := { s.params with verboseTrace := on } } = .next v ∧
      v.x = t.x ∧ v.mem = t.mem ∧ v.pc = t.pc ∧ v.condOut = t.condOut ∧ v.conditions = t.conditions)

/-! ## Runs and the host -/

/-- R204: a run starts in the reset state, takes steps until none is enabled, each word of the stream once and in order,
and then emits the result report. -/
def Obligations.ARunExecutesEveryWordOnceInOrder : Prop :=
  ∀ (h : HostSetup) (start : State) (n : Nat), startRun h = some start → h.stream.length = 6 * n →
    start = { State.reset with stream := h.stream, params := h.params } ∧
    (∀ k, k ≤ n → ∃ s, runSteps k start = some s ∧ s.pc = k ∧
      (k < n → fetch s = .word (wordOfBytes ((h.stream.drop (6 * k)).take 6)))) ∧
    runSteps (n + 1) start = none ∧
    ∃ s, runSteps n start = some s ∧ (∀ t, step s ≠ .next t) ∧ runToEnd h = .finished s (resultReport s)

/-- Derived, the spec's own choice D5 (log entry 5): a stream that ends in a fragment is refused after its whole words. -/
def Obligations.AFragmentRunHasNoFinalState : Prop :=
  ∀ (h : HostSetup) (start : State), startRun h = some start → h.stream.length % 6 ≠ 0 →
    (∃ s, runSteps (h.stream.length / 6) start = some s ∧ step s = .refused .streamFragment) ∧
    runToEnd h = .refused .streamFragment

/-- Derived (R206; integer bounds are the spec's own choice D18, log entry 21): the report has exactly one record for each
cell of the window that exists, in ascending order, and an empty window gives none; `host_mem` (R37) reads each of the
1024 cells, in the window or not, and nothing else. -/
def Obligations.TheReportListsTheClampedWindow : Prop :=
  ∀ s : State,
    (∀ i v, (i, v) ∈ resultReport s ↔
      i < 1024 ∧ s.params.windowStart ≤ (i : Int) ∧ (i : Int) ≤ s.params.windowEnd ∧ v = s.readCell i) ∧
    (resultReport s).Pairwise (fun p q => p.1 < q.1) ∧
    (s.params.windowEnd < s.params.windowStart → resultReport s = []) ∧
    (∀ i v, hostMem s i = some v ↔ i < 1024 ∧ v = s.readCell i)

/-- Derived from R203 and R175 (log entry 20): a run starts, in the reset state with the host's stream, exactly when both
files open; otherwise no run takes place and no state is reported; and nothing else, no condition, keeps a run of whole
words from its normal end. -/
def Obligations.AFailedOpenMeansNoRun : Prop :=
  ∀ h : HostSetup, (startRun h = none ↔ h.inputOpens = false ∨ h.outputOpens = false) ∧
    (∀ s, startRun h = some s → s = boot h ∧ s.stream = h.stream ∧ s.pc = 0) ∧
    (runToEnd h = .aborted ↔ h.inputOpens = false ∨ h.outputOpens = false) ∧
    (h.stream.length % 6 = 0 →
      ((∃ t report, runToEnd h = .finished t report) ↔ h.inputOpens = true ∧ h.outputOpens = true))

/-! ## The assembler (toolchain reference) -/

/-- Derived, a sanity statement: the source's worked examples S1 and S2 and the vectors V1, V2, V7 and V16. -/
def Obligations.AssemblerGivesTheSpecExamples : Prop :=
  (assemble "LOAD_CONSTANT R4, #187".toList).binary = [0xC3, 0xDC, 0x05, 0x00, 0x00, 0x00] ∧
  (assemble "MEMORY_WRITE [R1 + 144], R6".toList).binary = [0x35, 0x86, 0x14, 0x00, 0x00, 0x00] ∧
  (assemble "MEMORY_READ R3, [R5]".toList).binary = [0x53, 0x1D, 0x00, 0x00, 0x00, 0x00] ∧
  (assemble "OR R2, [100] | R1".toList).binary = [0x4A, 0x22, 0x03, 0x00, 0x40, 0x00] ∧
  (assemble "LOAD_CONSTANT R4 #187".toList).binary = [] ∧
  (assemble "LOAD_CONSTANT R1, #-5".toList).error ≠ none

/-- Derived from R94, and from the uniform abort of R93, the spec's own choice D10 (log entry 18), on which the third clause
rests: the binary is one six-byte word per assembled instruction, with one log record for each, both in source order: the
source's tokens are those of the logged instructions, one after another, and then, exactly if assembly stopped at an
error, what was not assembled; and whatever instructions a source begins with, their words and records come first, in its order,
and then those of assembling the rest. -/
def Obligations.AssemblerWritesOneWordPerInstruction : Prop :=
  ∀ policy text,
    (assembleWith policy text).binary = ((assembleWith policy text).log.map encodeBytes).flatten ∧
    (assembleWith policy text).binary.length = 6 * (assembleWith policy text).log.length ∧
    (∃ (prog : List SourceInstr) (rest : List Token), (∀ p ∈ prog, p.Parses policy) ∧
      tokenize text = (prog.map SourceInstr.tokens).flatten ++ rest ∧
      (assembleWith policy text).log = prog.map SourceInstr.instr ∧
      ((assembleWith policy text).error = none ↔ rest = [])) ∧
    (∀ (prog : List SourceInstr) (rest : List Token), (∀ p ∈ prog, p.Parses policy) →
      tokenize text = (prog.map SourceInstr.tokens).flatten ++ rest →
      assembleWith policy text =
        { binary := (prog.map fun p => encodeBytes p.instr).flatten ++ (assembleTokens policy rest.length rest).binary
          log := prog.map SourceInstr.instr ++ (assembleTokens policy rest.length rest).log
          error := (assembleTokens policy rest.length rest).error })

/-- Derived, the spec's own choice D10 (log entry 18): at the first syntax error assembly stops, and the output is that of
the tokens before the failing instruction, whatever follows it. Which tokens are reported, and so where the failing
instruction's tokens stand in the source, is the model's own choice (log entry 17, DESIGN CHOICE). -/
def Obligations.AssemblyStopsAtTheFirstError : Prop :=
  ∀ policy fuel tokens e, (assembleTokens policy fuel tokens).error = some e →
    ∃ before after, tokens = before ++ e.rawTokens ++ after ∧
      assembleTokens policy fuel before =
        { binary := (assembleTokens policy fuel tokens).binary,
          log := (assembleTokens policy fuel tokens).log, error := none }

/-- Derived (R131): for every register and every 26-bit immediate, assembling `LOAD_CONSTANT R<r>, #<v>` gives one word
and no error, and the run of that binary ends with `x[r]` at `v` modulo `2^K` and everything else at its reset value. -/
def Obligations.AssembledLoadConstantRunsAsWritten : Prop :=
  ∀ (r : RegField) (v : BitVec 26) (h : HostSetup) (start : State), startRun h = some start →
    h.stream = (assemble (sourceLoadConstant r.toNat v.toNat)).binary →
    assemble (sourceLoadConstant r.toNat v.toNat) =
      { binary := encodeBytes (.loadConstant r v), log := [.loadConstant r v], error := none } ∧
    ∃ t report, runToEnd h = .finished t report ∧ t.pc = 1 ∧ t.conditions = [] ∧
      (t.readReg r).toNat = v.toNat % 2 ^ Config.immBits h.params.decodeMode ∧
      (∀ k : Fin 32, k ≠ regSlot r → t.x[k] = 0) ∧ ∀ a, t.readCell a = 0
end

