-- ==== Sys2Proof/Laws/Assembler.lean ====
section
/-! SUPPORT. What one round of the assembler's pass can do (30_encoding.md R85, R93, R94). -/

namespace Sys2Proof.Machine

variable {policy : AsmRangePolicy} {m : Token} {ops rest : List Token} {i : Instr}

/-- A mnemonic parses only with its fixed number of operand tokens (R85, R90). -/
theorem operandCount_of_parseInstr (h : parseInstr policy m ops = some i) : operandCount m = some ops.length := by
  unfold parseInstr at h; unfold operandCount
  split at h
  · unfold parseLoadConstant at h; split at h <;> simp_all
  split at h
  · unfold parseMemoryRead at h; split at h <;> simp_all
  split at h
  · unfold parseMemoryWrite at h; split at h <;> simp_all
  split at h
  · unfold parseOr at h; split at h <;> simp_all
  · cases h

/-- An instruction that parses gives its word and its record, and then the rest is assembled. -/
theorem assembleTokens_of_parseInstr (fuel : Nat) (h : parseInstr policy m ops = some i) :
    assembleTokens policy (fuel + 1) (m :: (ops ++ rest)) = AsmResult.emit i (assembleTokens policy fuel rest) := by
  rw [assembleTokens]
  simp only [operandCount_of_parseInstr h, List.take_left, List.drop_left, h]

/-- What one round does with a first token: it stops there, or it assembles one instruction. -/
theorem assembleTokens_cases (policy : AsmRangePolicy) (fuel : Nat) (m : Token) (rest : List Token) :
    (∃ ops, assembleTokens policy (fuel + 1) (m :: rest) = AsmResult.failed m ops) ∨
    ∃ ops after i, rest = ops ++ after ∧ parseInstr policy m ops = some i ∧
      assembleTokens policy (fuel + 1) (m :: rest) = AsmResult.emit i (assembleTokens policy fuel after) := by
  cases ho : operandCount m with
  | none => exact .inl ⟨[], by rw [assembleTokens]; simp only [ho]⟩
  | some n =>
    cases hp : parseInstr policy m (rest.take n) with
    | none => exact .inl ⟨rest.take n, by rw [assembleTokens]; simp only [ho, hp]⟩
    | some i =>
      exact .inr ⟨rest.take n, rest.drop n, i, (List.take_append_drop n rest).symm, hp, by
        rw [assembleTokens]; simp only [ho, hp]⟩

end Sys2Proof.Machine
end

