-- ==== Sys2Proof/Laws/State.lean ====
section
/-! SUPPORT. One lemma per field of State and per update, so that no later proof unfolds a record update. -/

namespace Sys2Proof.Machine

variable (s : State)

/-! ### writeReg -/
@[simp] theorem State.writeReg_x (r : RegField) (v : Word) : (s.writeReg r v).x = s.x.set (regSlot r) v := rfl
@[simp] theorem State.writeReg_mem (r : RegField) (v : Word) : (s.writeReg r v).mem = s.mem := rfl
@[simp] theorem State.writeReg_pc (r : RegField) (v : Word) : (s.writeReg r v).pc = s.pc := rfl
@[simp] theorem State.writeReg_stream (r : RegField) (v : Word) : (s.writeReg r v).stream = s.stream := rfl
@[simp] theorem State.writeReg_params (r : RegField) (v : Word) : (s.writeReg r v).params = s.params := rfl
@[simp] theorem State.writeReg_condOut (r : RegField) (v : Word) : (s.writeReg r v).condOut = s.condOut := rfl
@[simp] theorem State.writeReg_conditions (r : RegField) (v : Word) : (s.writeReg r v).conditions = s.conditions := rfl
@[simp] theorem State.writeReg_trace (r : RegField) (v : Word) : (s.writeReg r v).trace = s.trace := rfl

/-! ### writeCell -/
@[simp] theorem State.writeCell_x (a : Nat) (v : Word) : (s.writeCell a v).x = s.x := rfl
@[simp] theorem State.writeCell_mem (a : Nat) (v : Word) : (s.writeCell a v).mem = s.mem.write a v := rfl
@[simp] theorem State.writeCell_pc (a : Nat) (v : Word) : (s.writeCell a v).pc = s.pc := rfl
@[simp] theorem State.writeCell_stream (a : Nat) (v : Word) : (s.writeCell a v).stream = s.stream := rfl
@[simp] theorem State.writeCell_params (a : Nat) (v : Word) : (s.writeCell a v).params = s.params := rfl
@[simp] theorem State.writeCell_condOut (a : Nat) (v : Word) : (s.writeCell a v).condOut = s.condOut := rfl
@[simp] theorem State.writeCell_conditions (a : Nat) (v : Word) : (s.writeCell a v).conditions = s.conditions := rfl
@[simp] theorem State.writeCell_trace (a : Nat) (v : Word) : (s.writeCell a v).trace = s.trace := rfl

/-! ### raise -/
@[simp] theorem State.raise_x (c : Condition) : (s.raise c).x = s.x := rfl
@[simp] theorem State.raise_mem (c : Condition) : (s.raise c).mem = s.mem := rfl
@[simp] theorem State.raise_pc (c : Condition) : (s.raise c).pc = s.pc := rfl
@[simp] theorem State.raise_stream (c : Condition) : (s.raise c).stream = s.stream := rfl
@[simp] theorem State.raise_params (c : Condition) : (s.raise c).params = s.params := rfl
@[simp] theorem State.raise_condOut (c : Condition) : (s.raise c).condOut = some (.raised c) := rfl
@[simp] theorem State.raise_conditions (c : Condition) : (s.raise c).conditions = s.conditions ++ [c] := rfl
@[simp] theorem State.raise_trace (c : Condition) : (s.raise c).trace = s.trace := rfl

/-! ### reportOk -/
@[simp] theorem State.reportOk_x : s.reportOk.x = s.x := rfl
@[simp] theorem State.reportOk_mem : s.reportOk.mem = s.mem := rfl
@[simp] theorem State.reportOk_pc : s.reportOk.pc = s.pc := rfl
@[simp] theorem State.reportOk_stream : s.reportOk.stream = s.stream := rfl
@[simp] theorem State.reportOk_params : s.reportOk.params = s.params := rfl
@[simp] theorem State.reportOk_condOut : s.reportOk.condOut = some .ok := rfl
@[simp] theorem State.reportOk_conditions : s.reportOk.conditions = s.conditions := rfl
@[simp] theorem State.reportOk_trace : s.reportOk.trace = s.trace := rfl

/-! ### advance -/
@[simp] theorem State.advance_x : s.advance.x = s.x := rfl
@[simp] theorem State.advance_mem : s.advance.mem = s.mem := rfl
@[simp] theorem State.advance_pc : s.advance.pc = s.pc + 1 := rfl
@[simp] theorem State.advance_stream : s.advance.stream = s.stream := rfl
@[simp] theorem State.advance_params : s.advance.params = s.params := rfl
@[simp] theorem State.advance_condOut : s.advance.condOut = s.condOut := rfl
@[simp] theorem State.advance_conditions : s.advance.conditions = s.conditions := rfl
@[simp] theorem State.advance_trace : s.advance.trace = s.trace := rfl

/-! ### emitTrace: only the trace may grow -/
@[simp] theorem State.emitTrace_x (i : Option Instr) : (s.emitTrace i).x = s.x := by
  unfold State.emitTrace; split <;> rfl
@[simp] theorem State.emitTrace_mem (i : Option Instr) : (s.emitTrace i).mem = s.mem := by
  unfold State.emitTrace; split <;> rfl
@[simp] theorem State.emitTrace_pc (i : Option Instr) : (s.emitTrace i).pc = s.pc := by
  unfold State.emitTrace; split <;> rfl
@[simp] theorem State.emitTrace_stream (i : Option Instr) : (s.emitTrace i).stream = s.stream := by
  unfold State.emitTrace; split <;> rfl
@[simp] theorem State.emitTrace_params (i : Option Instr) : (s.emitTrace i).params = s.params := by
  unfold State.emitTrace; split <;> rfl
@[simp] theorem State.emitTrace_condOut (i : Option Instr) : (s.emitTrace i).condOut = s.condOut := by
  unfold State.emitTrace; split <;> rfl
@[simp] theorem State.emitTrace_conditions (i : Option Instr) : (s.emitTrace i).conditions = s.conditions := by
  unfold State.emitTrace; split <;> rfl
theorem State.emitTrace_trace (i : Option Instr) :
    (s.emitTrace i).trace = if s.traces then s.trace ++ [s.snapshot i] else s.trace := by
  unfold State.emitTrace; split <;> rfl

/-! ### retire: trace, then advance -/
@[simp] theorem State.retire_x (i : Option Instr) : (s.retire i).x = s.x := by simp [State.retire]
@[simp] theorem State.retire_mem (i : Option Instr) : (s.retire i).mem = s.mem := by simp [State.retire]
@[simp] theorem State.retire_pc (i : Option Instr) : (s.retire i).pc = s.pc + 1 := by simp [State.retire]
@[simp] theorem State.retire_stream (i : Option Instr) : (s.retire i).stream = s.stream := by simp [State.retire]
@[simp] theorem State.retire_params (i : Option Instr) : (s.retire i).params = s.params := by simp [State.retire]
@[simp] theorem State.retire_condOut (i : Option Instr) : (s.retire i).condOut = s.condOut := by simp [State.retire]
@[simp] theorem State.retire_conditions (i : Option Instr) : (s.retire i).conditions = s.conditions := by simp [State.retire]
theorem State.retire_trace (i : Option Instr) :
    (s.retire i).trace = if s.traces then s.trace ++ [s.snapshot i] else s.trace := s.emitTrace_trace i

/-! ### skipWord: a condition, then retire -/
@[simp] theorem State.skipWord_x (tag : Tag) (w : CodeWord) :
    (s.skipWord tag w).x = s.x := by simp [State.skipWord]
@[simp] theorem State.skipWord_mem (tag : Tag) (w : CodeWord) :
    (s.skipWord tag w).mem = s.mem := by simp [State.skipWord]
@[simp] theorem State.skipWord_pc (tag : Tag) (w : CodeWord) :
    (s.skipWord tag w).pc = s.pc + 1 := by simp [State.skipWord]
@[simp] theorem State.skipWord_stream (tag : Tag) (w : CodeWord) :
    (s.skipWord tag w).stream = s.stream := by simp [State.skipWord]
@[simp] theorem State.skipWord_params (tag : Tag) (w : CodeWord) :
    (s.skipWord tag w).params = s.params := by simp [State.skipWord]
@[simp] theorem State.skipWord_condOut (tag : Tag) (w : CodeWord) :
    (s.skipWord tag w).condOut = some (.raised (.invalidOpcode tag w)) := by simp [State.skipWord]
@[simp] theorem State.skipWord_conditions (tag : Tag) (w : CodeWord) :
    (s.skipWord tag w).conditions = s.conditions ++ [.invalidOpcode tag w] := by simp [State.skipWord]

/-! ### withFetchWord: only the stream changes -/
@[simp] theorem State.withFetchWord_x (n w : Nat) : (s.withFetchWord n w).x = s.x := rfl
@[simp] theorem State.withFetchWord_mem (n w : Nat) : (s.withFetchWord n w).mem = s.mem := rfl
@[simp] theorem State.withFetchWord_pc (n w : Nat) : (s.withFetchWord n w).pc = s.pc := rfl
theorem State.withFetchWord_stream (n w : Nat) :
    (s.withFetchWord n w).stream = placeWord (tableWord n w) s.byteOffset s.stream := rfl
@[simp] theorem State.withFetchWord_params (n w : Nat) : (s.withFetchWord n w).params = s.params := rfl
@[simp] theorem State.withFetchWord_condOut (n w : Nat) : (s.withFetchWord n w).condOut = s.condOut := rfl
@[simp] theorem State.withFetchWord_conditions (n w : Nat) : (s.withFetchWord n w).conditions = s.conditions := rfl
@[simp] theorem State.withFetchWord_trace (n w : Nat) : (s.withFetchWord n w).trace = s.trace := rfl

/-! ### the reset state -/
@[simp] theorem State.reset_x : State.reset.x = Vector.replicate 32 0 := rfl
@[simp] theorem State.reset_mem : State.reset.mem = [] := rfl
@[simp] theorem State.reset_pc : State.reset.pc = 0 := rfl
@[simp] theorem State.reset_stream : State.reset.stream = [] := rfl
@[simp] theorem State.reset_params : State.reset.params = Params.initial := rfl
@[simp] theorem State.reset_condOut : State.reset.condOut = none := rfl
@[simp] theorem State.reset_conditions : State.reset.conditions = [] := rfl
@[simp] theorem State.reset_trace : State.reset.trace = [] := rfl

end Sys2Proof.Machine
end

