-- ==== Sys2Proof/Laws/Memory.lean ====
section
/-! SUPPORT. The data memory: a read after a write, the canonical form, and equality of equal memories. -/

namespace Sys2Proof.Machine

variable {m : Memory} {a b : Nat} {v : Word}

@[simp] theorem Memory.read_nil : Memory.read [] a = 0 := rfl

theorem Memory.read_cons (k : Nat) (u : Word) :
    Memory.read ((k, u) :: m) a = if k = a then u else Memory.read m a := rfl

/-- A cell below every listed one is unlisted. -/
theorem Memory.read_eq_zero_of_below (h : ∀ c ∈ m, a < c.1) : Memory.read m a = 0 := by
  induction m with
  | nil => rfl
  | cons c m ih =>
    obtain ⟨k, u⟩ := c
    have hk : a < k := h (k, u) (by simp)
    rw [Memory.read_cons, if_neg (by omega)]
    exact ih fun c hc => h c (by simp [hc])

theorem Memory.wf_cons (k : Nat) (u : Word) :
    Memory.wf ((k, u) :: m) = true ↔
      k < Config.memCells ∧ u ≠ 0 ∧ (∀ c ∈ m, k < c.1) ∧ Memory.wf m = true := by
  simp only [Memory.wf, Bool.and_eq_true, decide_eq_true_eq, List.all_eq_true, and_assoc]
  rfl

/-- Putting a cell in front of cells that all lie above it. -/
theorem Memory.read_put (h : ∀ c ∈ m, a < c.1) :
    Memory.read (Memory.put a v m) b = if a = b then v else Memory.read m b := by
  unfold Memory.put
  split
  · rename_i hv
    split
    · subst_vars; exact Memory.read_eq_zero_of_below h
    · rfl
  · rfl

theorem Memory.mem_put {c : Nat × Word} (hc : c ∈ Memory.put a v m) : c = (a, v) ∨ c ∈ m := by
  unfold Memory.put at hc
  split at hc
  · exact .inr hc
  · simpa using hc

theorem Memory.put_wf (ha : a < Config.memCells) (h : ∀ c ∈ m, a < c.1) (hm : Memory.wf m = true) :
    Memory.wf (Memory.put a v m) = true := by
  unfold Memory.put
  split
  · exact hm
  · exact (Memory.wf_cons a v).2 ⟨ha, ‹_›, h, hm⟩

theorem Memory.mem_write {c : Nat × Word} (hc : c ∈ Memory.write m a v) : c = (a, v) ∨ c ∈ m := by
  induction m with
  | nil => simpa using Memory.mem_put hc
  | cons d m ih =>
    obtain ⟨k, u⟩ := d
    rw [Memory.write] at hc
    split at hc
    · exact Memory.mem_put hc
    · split at hc
      · exact (Memory.mem_put hc).imp_right (List.mem_cons_of_mem _)
      · rcases List.mem_cons.1 hc with rfl | hc
        · simp
        · exact (ih hc).imp_right (List.mem_cons_of_mem _)

/-- Every memory operation keeps the canonical form. -/
theorem Memory.write_wf (ha : a < Config.memCells) (hm : Memory.wf m = true) :
    Memory.wf (Memory.write m a v) = true := by
  induction m with
  | nil => exact Memory.put_wf ha (by simp) hm
  | cons d m ih =>
    obtain ⟨k, u⟩ := d
    obtain ⟨hk, hu, hlt, hm'⟩ := (Memory.wf_cons k u).1 hm
    rw [Memory.write]
    split
    · refine Memory.put_wf ha (fun c hc => ?_) hm
      rcases List.mem_cons.1 hc with rfl | hc
      · assumption
      · exact Nat.lt_trans ‹_› (hlt c hc)
    · split
      · subst_vars; exact Memory.put_wf ha hlt hm'
      · refine (Memory.wf_cons k u).2 ⟨hk, hu, fun c hc => ?_, ih hm'⟩
        rcases Memory.mem_write hc with rfl | hc
        · show k < a
          omega
        · exact hlt c hc

/-- A write sets the cell it names and leaves every other cell alone. -/
theorem Memory.read_write (hm : Memory.wf m = true) :
    Memory.read (Memory.write m a v) b = if a = b then v else Memory.read m b := by
  induction m with
  | nil => exact Memory.read_put (by simp)
  | cons d m ih =>
    obtain ⟨k, u⟩ := d
    obtain ⟨hk, hu, hlt, hm'⟩ := (Memory.wf_cons k u).1 hm
    rw [Memory.write]
    split
    · refine Memory.read_put fun c hc => ?_
      rcases List.mem_cons.1 hc with rfl | hc
      · assumption
      · exact Nat.lt_trans ‹_› (hlt c hc)
    · split
      · rename_i hak
        subst hak
        rw [Memory.read_put hlt, Memory.read_cons]
        split <;> rfl
      · rw [Memory.read_cons, Memory.read_cons, ih hm']
        split <;> split <;> first | rfl | omega

/-- In canonical form equal contents are equal data. -/
theorem Memory.ext_of_wf {m n : Memory} (hm : Memory.wf m = true) (hn : Memory.wf n = true)
    (h : ∀ a, Memory.read m a = Memory.read n a) : m = n := by
  induction m generalizing n with
  | nil =>
    cases n with
    | nil => rfl
    | cons d n =>
      obtain ⟨k, u⟩ := d
      have := (Memory.wf_cons k u).1 hn
      have hk := h k
      rw [Memory.read_cons, if_pos rfl] at hk
      exact absurd hk.symm this.2.1
  | cons d m ih =>
    obtain ⟨k, u⟩ := d
    obtain ⟨-, hu, hlt, hm'⟩ := (Memory.wf_cons k u).1 hm
    have hk := h k
    rw [Memory.read_cons, if_pos rfl] at hk
    cases n with
    | nil => exact absurd hk hu
    | cons e n =>
      obtain ⟨j, w⟩ := e
      obtain ⟨-, hw, hlt', hn'⟩ := (Memory.wf_cons j w).1 hn
      have hj := h j
      rw [Memory.read_cons (m := n), if_pos rfl, Memory.read_cons] at hj
      have hkj : k = j := by
        rcases Nat.lt_trichotomy k j with hlt0 | he | hgt
        · rw [Memory.read_cons, if_neg (by omega),
            Memory.read_eq_zero_of_below fun c hc => Nat.lt_trans hlt0 (hlt' c hc)] at hk
          exact absurd hk hu
        · exact he
        · rw [if_neg (by omega), Memory.read_eq_zero_of_below fun c hc => Nat.lt_trans hgt (hlt c hc)] at hj
          exact absurd hj.symm hw
      subst hkj
      rw [Memory.read_cons, if_pos rfl] at hk
      subst hk
      congr 1
      refine ih hm' hn' fun a => ?_
      have ha := h a
      rw [Memory.read_cons, Memory.read_cons] at ha
      split at ha
      · subst_vars
        rw [Memory.read_eq_zero_of_below hlt, Memory.read_eq_zero_of_below hlt']
      · exact ha

end Sys2Proof.Machine
end

