-- ==== Sys2Proof/Laws/Ops.lean ====
section
/-! SUPPORT. Once for each shared operation, everything it can do. -/

namespace Sys2Proof.Machine

variable {s t : State} {a : Nat} {v : Word} {r q : RegField}

/-! ## Registers and cells -/

theorem regSlot_injective (h : regSlot r = regSlot q) : r = q := by
  have := congrArg Fin.val h
  exact BitVec.eq_of_toNat_eq this

theorem regSlot_lt (r : RegField) : (regSlot r).val < 8 := r.isLt

theorem getSlot_writeReg (k : Fin 32) :
    (s.writeReg r v).x[k] = if k = regSlot r then v else s.x[k] := by
  simp only [State.writeReg_x, Fin.getElem_fin, Vector.getElem_set, Fin.ext_iff, eq_comm]

theorem readReg_writeReg : (s.writeReg r v).readReg q = if q = r then v else s.readReg q := by
  unfold State.readReg
  rw [getSlot_writeReg]
  by_cases h : q = r
  · subst h; simp
  · rw [if_neg h, if_neg fun hk => h (regSlot_injective hk)]

@[simp] theorem readReg_reportOk : s.reportOk.readReg r = s.readReg r := rfl
@[simp] theorem readReg_writeCell : (s.writeCell a v).readReg r = s.readReg r := rfl
@[simp] theorem readReg_raise (c : Condition) : (s.raise c).readReg r = s.readReg r := rfl
@[simp] theorem readReg_retire (i : Option Instr) : (s.retire i).readReg r = s.readReg r := by
  simp [State.readReg]

@[simp] theorem readCell_writeReg : (s.writeReg r v).readCell a = s.readCell a := rfl
@[simp] theorem readCell_reportOk : s.reportOk.readCell a = s.readCell a := rfl
@[simp] theorem readCell_raise (c : Condition) : (s.raise c).readCell a = s.readCell a := rfl
@[simp] theorem readCell_retire (i : Option Instr) : (s.retire i).readCell a = s.readCell a := by
  simp [State.readCell]
@[simp] theorem readCell_skipWord (tag : Tag) (w : CodeWord) : (s.skipWord tag w).readCell a = s.readCell a := by
  simp [State.readCell]

theorem readCell_writeCell (h : s.mem.wf = true) (b : Nat) :
    (s.writeCell a v).readCell b = if a = b then v else s.readCell b :=
  Memory.read_write h

/-! ## The access controller -/

theorem access_valid {info : Condition} {effect : State → State} (h : a < Config.memCells) :
    s.access a info effect = .next (effect s).reportOk := if_pos h

theorem access_invalid {info : Condition} {effect : State → State} (h : Config.memCells ≤ a) :
    s.access a info effect = .next (s.raise info) := if_neg (by omega)

theorem access_cases {info : Condition} {effect : State → State} (h : s.access a info effect = .next t) :
    (a < Config.memCells ∧ t = (effect s).reportOk) ∨ (Config.memCells ≤ a ∧ t = s.raise info) := by
  unfold State.access at h
  split at h
  · exact .inl ⟨‹_›, by injection h with h; exact h.symm⟩
  · exact .inr ⟨by omega, by injection h with h; exact h.symm⟩

/-! ## Fetch -/

/-- The word the fetch loop finds when six bytes remain. -/
def wordAtPosition (s : State) : CodeWord :=
  wordOfBytes ((s.stream.drop s.byteOffset).take Config.wordBytes)

theorem fetch_eq_word (h : s.byteOffset + 6 ≤ s.stream.length) : fetch s = .word (wordAtPosition s) := by
  unfold fetch wordAtPosition
  rw [if_neg (by omega), if_neg (by omega), if_neg (by simp only [Config.wordBytes]; omega)]

theorem fetch_word_iff {w : CodeWord} :
    fetch s = .word w ↔ s.byteOffset + 6 ≤ s.stream.length ∧ w = wordAtPosition s := by
  constructor
  · intro h
    have hl : s.byteOffset + 6 ≤ s.stream.length := by
      unfold fetch at h
      split at h; · cases h
      split at h; · cases h
      split at h; · cases h
      simp only [Config.wordBytes] at *; omega
    rw [fetch_eq_word hl] at h
    exact ⟨hl, by injection h with h; exact h.symm⟩
  · rintro ⟨hl, rfl⟩; exact fetch_eq_word hl

theorem fetch_end_iff : fetch s = .endOfStream ↔ s.byteOffset = s.stream.length := by
  unfold fetch; repeat' split
  all_goals simp_all

theorem fetch_pastEnd_iff : fetch s = .pastEnd ↔ s.stream.length < s.byteOffset := by
  unfold fetch; repeat' split
  all_goals simp_all

theorem fetch_fragment_iff :
    fetch s = .fragment ↔ s.byteOffset < s.stream.length ∧ s.stream.length < s.byteOffset + 6 := by
  unfold fetch; repeat' split
  all_goals simp only [Config.wordBytes, reduceCtorEq, true_iff, false_iff] at *
  all_goals omega

/-! ## Decode -/

theorem decodeWord_error {mode : DecodeMode} {w : CodeWord} {e : DecodeReject}
    (h : decodeWord mode w = .error e) : e = .unassignedTag (fieldTag w) w := by
  unfold decodeWord at h
  repeat' split at h
  all_goals first
    | cases h; rfl
    | cases h

/-! ## The step -/

/-- Every instruction's rule ends in a next state: a condition stops nothing (60_exceptions.md R175). -/
theorem exec_answers_next (i : Instr) (s : State) : ∃ t, exec i s = .next t := by
  cases i with
  | loadConstant b c => exact ⟨_, rfl⟩
  | memoryRead b c =>
    by_cases h : addrRegister b s < Config.memCells
    · exact ⟨_, access_valid h⟩
    · exact ⟨_, access_invalid (Nat.le_of_not_lt h)⟩
  | memoryWrite b c d =>
    by_cases h : addrBaseOffset d c s < Config.memCells
    · exact ⟨_, access_valid h⟩
    · exact ⟨_, access_invalid (Nat.le_of_not_lt h)⟩
  | bitwiseOr b c d =>
    by_cases h : addrAbsolute c < Config.memCells
    · exact ⟨_, access_valid h⟩
    · exact ⟨_, access_invalid (Nat.le_of_not_lt h)⟩

/-- What a step can do when it answers a next state: it ran a decoded instruction, or it skipped a word. -/
theorem step_cases (h : step s = .next t) :
    ∃ w, fetch s = .word w ∧
      ((∃ i u, decodeWord s.params.decodeMode w = .ok i ∧ exec i s = .next u ∧ t = u.retire (some i)) ∨
       (decodeWord s.params.decodeMode w = .error (.unassignedTag (fieldTag w) w) ∧
         t = s.skipWord (fieldTag w) w)) := by
  unfold step stepFetched at h
  cases hf : fetch s with
  | endOfStream => rw [hf] at h; cases h
  | fragment => rw [hf] at h; cases h
  | pastEnd => rw [hf] at h; cases h
  | word w =>
    rw [hf] at h
    refine ⟨w, rfl, ?_⟩
    simp only [stepWord] at h
    cases hd : decodeWord s.params.decodeMode w with
    | ok i =>
      obtain ⟨u, hu⟩ := exec_answers_next i s
      simp only [hd, hu, retireOutcome] at h
      injection h with h
      exact .inl ⟨i, u, rfl, hu, h.symm⟩
    | error e =>
      simp only [hd] at h
      injection h with h
      exact .inr ⟨by rw [decodeWord_error hd], h.symm⟩

end Sys2Proof.Machine
end

