-- ==== Sys2Proof/Laws/PerInstr.lean ====
section
/-! SUPPORT. A law of every instruction as syntax: the tag of its word (30_encoding.md R71, R80). -/

namespace Sys2Proof.Laws.EncodedTag

/-- Bits 7:0 of the word of `i` are its tag. -/
def Statement (i : Instr) : Prop := fieldTag (encode i) = i.tag

theorem low_byte_of_append {n : Nat} (hi : BitVec n) (tag : Tag) : (hi ++ tag).extractLsb' 0 8 = tag :=
  BitVec.extractLsb'_append_eq_right

theorem loadConstant (b : RegField) (c : BitVec 26) : Statement (.loadConstant b c) := low_byte_of_append _ _
theorem memoryRead (b c : RegField) : Statement (.memoryRead b c) := low_byte_of_append _ _
theorem memoryWrite (b : RegField) (c : BitVec 9) (d : RegField) : Statement (.memoryWrite b c d) :=
  low_byte_of_append _ _
theorem bitwiseOr (b : RegField) (c : BitVec 27) (d : RegField) : Statement (.bitwiseOr b c d) :=
  low_byte_of_append _ _

end Sys2Proof.Laws.EncodedTag
end

