-- ==== Sys2Proof/Laws/Run.lean ====
section
/-! SUPPORT. What the host's set-up and the run's two shared functions can do (70_reset_and_hazards.md R203 to R205). -/

namespace Sys2Proof.Machine

variable {h : HostSetup} {s t : State} {k : Nat}

/-- A run starts only in the booted state, and only when both files open. -/
theorem startRun_some_iff : startRun h = some s ↔ (h.inputOpens = true ∧ h.outputOpens = true) ∧ s = boot h := by
  unfold startRun
  cases h.inputOpens <;> cases h.outputOpens <;> simp [eq_comm]

theorem runToEnd_of_start (hs : startRun h = some s) :
    runToEnd h = runFrom (h.stream.length / Config.wordBytes) s := by
  unfold runToEnd; rw [hs]

theorem runToEnd_of_no_start (hs : startRun h = none) : runToEnd h = .aborted := by
  unfold runToEnd; rw [hs]

/-- One enabled step of a run. -/
theorem runFrom_next (hs : step s = .next t) : runFrom (k + 1) s = runFrom k t := by
  rw [runFrom, hs]

/-- The normal end of a run, however many steps are still asked for. -/
theorem runFrom_at_end (hs : step s = .fault .endOfStream) : runFrom k s = .finished s (resultReport s) := by
  unfold runFrom; rw [hs]

/-- A refusal ends a run with no final state. -/
theorem runFrom_refused {r : Refusal} (hs : step s = .refused r) : runFrom k s = .refused r := by
  unfold runFrom; rw [hs]

/-- Once a run has started, it is never one that did not take place. -/
theorem runFrom_ne_aborted : ∀ (k : Nat) (s : State), runFrom k s ≠ .aborted
  | k, s => by
    unfold runFrom
    cases step s with
    | fault r => cases r <;> simp
    | refused r => simp
    | next t =>
      cases k with
      | zero => simp
      | succ k => exact runFrom_ne_aborted k t

end Sys2Proof.Machine
end

