-- ==== Sys2Proof/Tests/Slice0.lean ====
section
/-! SUPPORT. Tests whose expected results come from spec/ (the vectors S, V of 95_test_vectors.md and the encodings of
30_encoding.md), and a witness for the hypotheses of every statement. -/

namespace Sys2Proof.Tests

open Sys2Proof.Machine

/-! ## Helpers -/

/-- A state at stream position 0 with these registers, cells and stream bytes. -/
def start (mode : DecodeMode) (regs : List (RegField × Word)) (cells : List (Nat × Word)) (stream : List Byte) : State :=
  let s := regs.foldl (fun t r => t.writeReg r.1 r.2) { State.reset with stream := stream }
  let s := cells.foldl (fun t c => t.writeCell c.1 c.2) s
  { s with params := { s.params with decodeMode := mode } }

/-- The state after one step, if the step answers one. -/
def after (s : State) : Option State :=
  match step s with
  | .next t => some t
  | .fault _ => none
  | .refused _ => none

/-- What a test looks at after one step: a register, and the report. -/
def regAfter (s : State) (r : RegField) : Option Word := (after s).map fun t => t.readReg r
def cellAfter (s : State) (a : Nat) : Option Word := (after s).map fun t => t.readCell a
def reportAfter (s : State) : Option Report := (after s).bind fun t => t.condOut

/-! ## WellFormed: an ill-formed term for each check -/

theorem test_wellFormed_refuses_wide_immediate :
    (Instr.loadConstant 3 (BitVec.ofNat 26 (2 ^ 24))).wellFormed .reference = false ∧
    (Instr.loadConstant 3 (BitVec.ofNat 26 (2 ^ 24))).wellFormed .unified = true := by decide

theorem test_wellFormed_refuses_wide_address :
    (Instr.bitwiseOr 3 (BitVec.ofNat 27 (2 ^ 21)) 4).wellFormed .reference = false ∧
    (Instr.bitwiseOr 3 (BitVec.ofNat 27 (2 ^ 21)) 4).wellFormed .unified = true := by decide

/-! ## Configuration: the types have the widths of R5 -/

theorem test_config_agrees_with_the_types :
    (BitVec.allOnes 32 : Word).toNat + 1 = 2 ^ Config.xlen ∧ Config.cellBits = Config.xlen ∧
    State.reset.x.toList.length = Config.numRegs ∧ (BitVec.allOnes 3 : RegField).toNat + 1 = 2 ^ Config.regFieldBits ∧
    (BitVec.allOnes 48 : CodeWord).toNat + 1 = 2 ^ Config.wordBits ∧ 8 * Config.wordBytes = Config.wordBits ∧
    (BitVec.allOnes 8 : Tag).toNat + 1 = 2 ^ Config.tagBits ∧
    (State.reset.snapshot none).cells.toList.length = Config.traceCells := by decide

/-! ## Decoding: words written out from R73 to R76 -/

/-- V4: bits 47:37 zero, C = 2^26 - 1, B = 1, tag 0xC3. -/
theorem test_decode_loadConstant :
    decodeWord .unified 0b00000000000_11111111111111111111111111_001_11000011#48 = .ok (.loadConstant 1 67108863) ∧
    decodeWord .reference 0b00000000000_11111111111111111111111111_001_11000011#48 = .ok (.loadConstant 1 16777215) := by
  decide

/-- R87's example: C = 3 (destination), B = 5 (base), tag 0x53. -/
theorem test_decode_memoryRead :
    decodeWord .reference 0b0000000000000000000000000000000000_011_101_01010011#48 = .ok (.memoryRead 5 3) := by decide

/-- R88's example: D = 1 (base), C = 144 (offset), B = 6 (source), tag 0x35. -/
theorem test_decode_memoryWrite :
    decodeWord .reference 0b0000000000000000000000000_001_010010000_110_00110101#48 = .ok (.memoryWrite 6 144 1) := by
  decide

/-- R89's example: D = 1 (source), C = 100 (address), B = 2 (destination), tag 0x4A. -/
theorem test_decode_bitwiseOr :
    decodeWord .reference 0b0000000_001_000000000000000000001100100_010_01001010#48 = .ok (.bitwiseOr 2 100 1) := by
  decide

/-- V24: bits 47:41 set are don't-care bits. -/
theorem test_decode_ignores_high_bits :
    decodeBytes .reference [0x4A, 0x11, 0x00, 0x00, 0xC0, 0xFE] = .ok (.bitwiseOr 1 2 3) := by decide

/-- V21: S1's word with tag 194. -/
theorem test_decode_rejects_unassigned_tag :
    decodeBytes .reference [0xC2, 0xDC, 0x05, 0x00, 0x00, 0x00] = .error (.unassignedTag 194 0x5DCC2) := by decide

/-- V26's last three bytes. -/
theorem test_decode_rejects_fragment : decodeBytes .reference [0xC3, 0x52, 0x00] = .error (.fragment 3) := by decide

/-- S1 as the opcode table numbers its bits. -/
theorem test_decodeTableWord : decodeTableWord 48 0x5DCC3 = some (.loadConstant 4 187) := by decide

/-! ## The instructions, at most two tests each -/

/-- V34: the whole register is replaced. -/
theorem test_loadConstant_clears_high_bits :
    regAfter (start .reference [(4, 0xFFFFFFFF)] [] [0xC3, 0xDC, 0x05, 0x00, 0x00, 0x00]) 4 = some 187 := by decide

/-- V30 and V31: an immediate of 2^24 in each mode. -/
theorem test_loadConstant_truncates_by_mode :
    regAfter (start .reference [(3, 5)] [] [0xC3, 0x03, 0x00, 0x00, 0x08, 0x00]) 3 = some 0 ∧
    regAfter (start .unified [(3, 5)] [] [0xC3, 0x03, 0x00, 0x00, 0x08, 0x00]) 3 = some 16777216 := by decide

/-- V38: base and destination are one register. -/
theorem test_memoryRead_same_register :
    regAfter (start .reference [(2, 4)] [(4, 77)] [0x53, 0x12, 0x00, 0x00, 0x00, 0x00]) 2 = some 77 := by decide

/-- V37: address 1024 is out of bounds and the destination keeps its value. -/
theorem test_memoryRead_out_of_bounds :
    let s := start .reference [(0, 9), (1, 1024)] [] [0x53, 0x01, 0x00, 0x00, 0x00, 0x00]
    regAfter s 0 = some 9 ∧ reportAfter s = some (.raised (.outOfBounds 83 1 0 none 1024)) := by decide

/-- V41: the last cell, with the largest offset. -/
theorem test_memoryWrite_last_cell :
    cellAfter (start .reference [(0, 512), (3, 0xFFFFFFFF)] [] [0x35, 0xFB, 0x0F, 0x00, 0x00, 0x00]) 1023 =
      some 0xFFFFFFFF := by decide

/-- V45: the sum does not wrap to cell 0. -/
theorem test_memoryWrite_sum_does_not_wrap :
    let s := start .reference [(5, 0xFFFFFFFF)] [] [0x35, 0x0D, 0x50, 0x00, 0x00, 0x00]
    cellAfter s 0 = some 0 ∧ reportAfter s = some (.raised (.outOfBounds 53 5 1 (some 5) 4294967296)) := by decide

/-- V47: source and destination are one register, and the last cell. -/
theorem test_bitwiseOr_same_register :
    regAfter (start .reference [(0, 0x0F0F0F0F)] [(1023, 0xF0F0F0F0)] [0x4A, 0xF8, 0x1F, 0x00, 0x00, 0x00]) 0 =
      some 0xFFFFFFFF := by decide

/-- V49 and V50: encoded address 2^21 + 5 in each mode. -/
theorem test_bitwiseOr_address_by_mode :
    let s := fun mode => start mode [(4, 0x100)] [(5, 0x11)] [0x4A, 0x2B, 0x00, 0x00, 0x01, 0x01]
    regAfter (s .reference) 3 = some 273 ∧ regAfter (s .unified) 3 = some 0 ∧
    reportAfter (s .unified) = some (.raised (.outOfBounds 74 3 2097157 (some 4) 2097157)) := by decide

/-! ## The step and the host's part -/

/-- V19: tag 0 is reported and skipped. -/
theorem test_step_skips_unassigned_tag :
    let s := start .reference [(1, 1)] [] [0, 0, 0, 0, 0, 0]
    regAfter s 1 = some 1 ∧ reportAfter s = some (.raised (.invalidOpcode 0 0)) ∧
    (after s).map (fun t => t.pc) = some 1 := by decide

/-- V25 and R117: the empty stream ends at once, three bytes are refused. -/
theorem test_step_stops :
    step State.reset = .fault .endOfStream ∧
    step (start .reference [] [] [0xC3, 0x52, 0x00]) = .refused .streamFragment := ⟨rfl, rfl⟩

/-- The word placed at reset runs as the first instruction (S1). -/
theorem test_withFetchWord_runs : regAfter (State.reset.withFetchWord 48 0x5DCC3) 4 = some 187 := by decide

/-- R38: the trace shows the instruction, the registers after it and the first 16 cells. -/
theorem test_trace_record :
    let s := start .reference [] [(15, 9)] [0xC3, 0xDC, 0x05, 0x00, 0x00, 0x00]
    let s := { s with params := { s.params with verboseTrace := true } }
    (after s).map (fun t => t.trace.map fun r => (r.instr, r.regs[4], r.cells[15])) =
      some [(some (.loadConstant 4 187), 187, 9)] := by decide

/-- V54, V55, V57: the clamped window. -/
theorem test_report_window :
    let s := start .reference [] [(5, 10), (6, 15)] []
    let w := fun (a b : Int) => resultReport { s with params := { s.params with windowStart := a, windowEnd := b } }
    w 4 7 = [(4, 0), (5, 10), (6, 15), (7, 0)] ∧ w 1022 5000 = [(1022, 0), (1023, 0)] ∧ w 7 4 = [] := by decide

/-! ## The assembler -/

/-- V6, V8, V9, V11, V14, V15: what is accepted and what is a syntax error. -/
theorem test_assemble_operands :
    (assemble "LOAD_CONSTANT R4, #187abc".toList).log = [.loadConstant 4 187] ∧
    (assemble "LOAD_CONSTANT R8, #1".toList).log = [] ∧
    (assembleWith .truncate "LOAD_CONSTANT R8, #1".toList).binary = [0xC3, 0x08, 0x00, 0x00, 0x00, 0x00] ∧
    (assemble "LOAD_CONSTANT R1, #67108864".toList).log = [] ∧
    (assemble "MEMORY_WRITE [R1 - 144], R6".toList).log = [] ∧
    (assemble "BITWISE_OR R1, [5] | R2".toList).log = [] ∧
    (assemble "load_constant R1, #1".toList).log = [] := by decide

/-- Two instructions in one text, the words of S1 and S2 in source order (R94). -/
theorem test_assemble_source_order :
    (assemble "LOAD_CONSTANT R4, #187\nMEMORY_WRITE [R1 + 144], R6".toList).binary =
      [0xC3, 0xDC, 0x05, 0x00, 0x00, 0x00, 0x35, 0x86, 0x14, 0x00, 0x00, 0x00] := by decide

/-- V17: the third instruction fails; the binary holds the two before it. -/
theorem test_assemble_aborts :
    let r := assemble "LOAD_CONSTANT R1, #1 LOAD_CONSTANT R2, #2\nLOAD_CONSTANT R3 #3 LOAD_CONSTANT R4, #4".toList
    r.binary = [0xC3, 0x09, 0x00, 0x00, 0x00, 0x00, 0xC3, 0x12, 0x00, 0x00, 0x00, 0x00] ∧
    r.error.map (fun e => e.rawTokens.length) = some 3 := by decide

/-! ## Witnesses: data that meet the hypotheses of each statement, clause by clause -/

/-- S1's word, at stream position 0. -/
def bytesS1 : List Byte := [0xC3, 0xDC, 0x05, 0x00, 0x00, 0x00]

/-- A host's set-up with this stream. -/
def setup (stream : List Byte) : HostSetup :=
  { inputOpens := true, outputOpens := true, stream := stream, params := Params.initial }

/-- A state at the largest and smallest values of the address checks: `x[1] = 1023`, `x[2] = 1024`, `x[5] = 512`,
`x[6] = 513`. -/
def edge (stream : List Byte) : State := start .reference [(1, 1023), (2, 1024), (5, 512), (6, 513)] [(1023, 7)] stream

theorem witness_DecodeOfEncodeTruncatesToTheMode :
    (Instr.loadConstant 7 16777215).wellFormed Config.decodeMode = true ∧
    (Instr.bitwiseOr 7 2097151 7).wellFormed Config.decodeMode = true := by decide

theorem witness_EncodedWordIsZeroAboveItsFields :
    (encode (.loadConstant 7 67108863)).getLsbD 36 = true ∧ (encode (.memoryRead 7 7)).getLsbD 13 = true ∧
    (encode (.memoryWrite 7 511 7)).getLsbD 22 = true ∧ (encode (.bitwiseOr 7 134217727 7)).getLsbD 40 = true ∧
    bitSlice 0xFFFFFFFFFFC3#48 7 0 ∈ assignedTags := by decide

/-- The largest immediate of each mode, every other bit 0. -/
theorem witness_EncodeOfDecodeGivesTheWordBack :
    decodeWord .unified 0x1FFFFFFFC3#48 = .ok (.loadConstant 7 67108863) ∧
    decodeWord .reference 0x7FFFFFFC3#48 = .ok (.loadConstant 7 16777215) ∧
    (∀ k, careBit .unified (fieldTag 0x1FFFFFFFC3#48) k = false → (0x1FFFFFFFC3#48).getLsbD k = false) ∧
    ∀ k, careBit .reference (fieldTag 0x7FFFFFFC3#48) k = false → (0x7FFFFFFC3#48).getLsbD k = false := by
  have below : ∀ k < 48,
      (careBit .unified (fieldTag 0x1FFFFFFFC3#48) k = false → (0x1FFFFFFFC3#48).getLsbD k = false) ∧
      (careBit .reference (fieldTag 0x7FFFFFFC3#48) k = false → (0x7FFFFFFC3#48).getLsbD k = false) := by decide
  refine ⟨by decide, by decide, fun k hk => ?_, fun k hk => ?_⟩
  · by_cases h : k < 48
    · exact (below k h).1 hk
    · exact BitVec.getLsbD_of_ge _ _ (by omega)
  · by_cases h : k < 48
    · exact (below k h).2 hk
    · exact BitVec.getLsbD_of_ge _ _ (by omega)

theorem witness_DontCareBitsAreIgnored :
    bitSlice 0x5DCC3#48 7 0 ∈ assignedTags ∧
    (∀ k < 48, careBit .reference (fieldTag 0x5DCC3#48) k = true →
      (0xFFF80005DCC3#48).getLsbD k = (0x5DCC3#48).getLsbD k) ∧
    bitSlice 0x4A#48 7 0 ∈ assignedTags ∧
    (∀ k < 48, careBit .reference (fieldTag 0x4A#48) k = true →
      (0xFE3F0000004A#48).getLsbD k = (0x4A#48).getLsbD k) := by decide

theorem witness_DecodedInstructionFitsItsMode :
    decodeWord .reference 0x7FFFFFFC3#48 = .ok (.loadConstant 7 16777215) ∧
    decodeWord .reference 0x1FFFFFFC04A#48 = .ok (.bitwiseOr 0 2097144 7) := by decide

theorem witness_TheTagSelectsTheInstruction :
    bitSlice 0xC3#48 7 0 = 195 ∧ bitSlice 0x53#48 7 0 = 83 ∧ bitSlice 0x35#48 7 0 = 53 ∧ bitSlice 0x4A#48 7 0 = 74 ∧
    fetch (start .reference [] [] [0xC2, 0xDC, 0x05, 0x00, 0x00, 0x00]) = .word 0x5DCC2 ∧
    bitSlice 0x5DCC2#48 7 0 ∉ assignedTags := by decide

theorem witness_UnassignedTagIsReportedAndSkipped :
    fetch (start .unified [] [] [0, 0, 0, 0, 0, 0]) = .word 0 ∧ bitSlice 0#48 7 0 ∉ assignedTags := by decide

theorem witness_FetchedWordIsLittleEndian : 6 * (setup bytesS1 |> boot).pc + 6 ≤ (boot (setup bytesS1)).stream.length := by
  decide

theorem witness_BytesAndWordsDetermineEachOther : bytesS1.length = 6 := by decide

theorem witness_StepRunsTheDecodedInstruction :
    let s := { boot (setup (bytesS1 ++ bytesS1)) with pc := 1 }
    6 * s.pc + 6 ≤ s.stream.length ∧
    decodeBytes s.params.decodeMode (s.stream.drop (6 * s.pc)) = .ok (.loadConstant 4 187) ∧
    ∃ u, exec (.loadConstant 4 187) s = .next u := ⟨by decide, by decide, _, rfl⟩

theorem witness_EveryFetchedWordAdvancesThePosition : fetch (boot (setup bytesS1)) = .word 0x5DCC3 := by decide

theorem witness_NoStepAtTheEndOfTheStream :
    (let s := { boot (setup bytesS1) with pc := 1 }; 6 * s.pc = s.stream.length) ∧
    startRun (setup []) = some (boot (setup [])) ∧ (setup []).stream = [] := by decide

theorem witness_TrailingFragmentIsRefused :
    ∀ n ∈ [1, 5], let s := boot (setup (List.replicate n 0))
      6 * s.pc < s.stream.length ∧ s.stream.length < 6 * s.pc + 6 := by decide

theorem witness_StepGoesOnWhileAWholeWordRemains :
    step (boot (setup [0])) = .refused .streamFragment ∧ State.reset.Sound ∧ step State.reset = .fault .endOfStream :=
  ⟨rfl, ⟨rfl, by decide⟩, rfl⟩

theorem witness_PlacedWordIsFetchedNext : 2 ^ 48 - 1 < 2 ^ 48 ∧ 0 < 2 ^ 48 := by decide

theorem witness_LoadConstantWritesItsImmediate : bitSlice 0x1FFFFFFFC3#48 7 0 = 195 := by decide

theorem witness_MemoryReadCopiesTheAddressedCell :
    bitSlice 0x1D53#48 7 0 = 83 ∧ ((edge []).readReg 1).toNat = 1023 ∧ ((edge []).readReg 1).toNat < 1024 ∧
    1024 ≤ ((edge []).readReg 2).toNat := by decide

theorem witness_MemoryWriteStoresTheSourceRegister :
    bitSlice 0x148635#48 7 0 = 53 ∧ (edge []).mem.wf = true ∧
    ((edge []).readReg 5).toNat + (511#9).toNat < 1024 ∧ 1024 ≤ ((edge []).readReg 6).toNat + (511#9).toNat := by decide

theorem witness_BitwiseOrWritesTheOr :
    bitSlice 0x400003224A#48 7 0 = 74 ∧ (1023#27).toNat < 1024 ∧ 1024 ≤ (1024#27).toNat := by decide

theorem witness_AluOrHasTheLawsOfOr :
    (0x0F#32).toNat < 2 ^ 8 ∧ (0xF0#32).toNat < 2 ^ 8 := by decide

theorem witness_InstructionsReadAndWriteTheirRegistersOnly :
    (∃ t v, exec (.memoryRead 1 3) (edge []) = .next t ∧ exec (.memoryRead 1 3) ((edge []).writeReg 7 9) = .next v ∧
      t.condOut = some .ok) ∧
    (∀ r ∈ readsRegs (.memoryRead 1 3), ((edge []).writeReg 7 9).readReg r = (edge []).readReg r) ∧
    ((edge []).writeReg 7 9).mem = (edge []).mem ∧
    (∃ t, exec (.memoryRead 2 3) (edge []) = .next t ∧ t.condOut ≠ some .ok) ∧
    (∃ t, exec (.bitwiseOr 3 1023 4) (edge []) = .next t ∧ t.condOut = some .ok) ∧
    4 ∈ readsRegs (.bitwiseOr 3 1023 4) ∧ writesReg (.bitwiseOr 3 1023 4) = some 3 :=
  ⟨⟨_, _, rfl, rfl, rfl⟩, by decide, rfl, ⟨_, rfl, by decide⟩, ⟨_, rfl, rfl⟩, by decide, rfl⟩

theorem witness_LoadConstantWordLoadsTheTruncatedImmediate :
    fetch (boot (setup (encodeBytes (.loadConstant 1 67108863)))) = .word (encode (.loadConstant 1 67108863)) := by decide

theorem witness_AccessGoesAheadExactlyOnValidCells :
    cellAddress (edge []) (.memoryRead 1 0) = some 1023 ∧ cellAddress (edge []) (.memoryRead 2 0) = some 1024 ∧
    cellAddress (edge []) (.memoryWrite 0 511 5) = some 1023 ∧ cellAddress (edge []) (.bitwiseOr 0 1024 0) = some 1024 := by
  decide

theorem witness_AConditionChangesOnlyThePosition :
    ∃ t, step (edge [0x53, 0x02, 0, 0, 0, 0]) = .next t ∧ t.condOut = some (.raised (.outOfBounds 83 2 0 none 1024)) :=
  ⟨_, rfl, by decide⟩

theorem witness_ReportCodesFollowTheirCauses :
    fetch (edge [0x53, 0x02, 0, 0, 0, 0]) = .word 0x253 ∧ bitSlice 0x253#48 7 0 ∈ assignedTags ∧
    fetch (edge [0x52, 0x02, 0, 0, 0, 0]) = .word 0x252 ∧ bitSlice 0x252#48 7 0 ∉ assignedTags := by decide

theorem witness_HistoryGrowsByTheStepsCondition :
    (∃ t, step (edge bytesS1) = .next t ∧ t.conditions = []) ∧
    (∃ t, step (edge [0, 0, 0, 0, 0, 0]) = .next t ∧ t.conditions = [.invalidOpcode 0 0]) :=
  ⟨⟨_, rfl, rfl⟩, ⟨_, rfl, by decide⟩⟩

/-- `MEMORY_WRITE [R1 + 0], R2`: bytes 35 02 10 00 00 00 (program P1). -/
theorem witness_OnlyMemoryWriteChangesACell :
    (edge [0x35, 0x02, 0x10, 0, 0, 0]).mem.wf = true ∧
    (∃ t, step (edge [0x35, 0x02, 0x10, 0, 0, 0]) = .next t ∧ t.readCell 1023 = 1024) ∧
    storeOf (edge [0x35, 0x02, 0x10, 0, 0, 0]) = some (1023, 1024) := ⟨by decide, ⟨_, rfl, by decide⟩, by decide⟩

/-- From a booted state, a MEMORY_READ and a BITWISE_OR as the second word. -/
theorem witness_ReadsReturnTheMostRecentStore :
    (∃ s t, runSteps 1 (boot (setup (bytesS1 ++ [0x53, 0x18, 0, 0, 0, 0]))) = some s ∧ fetch s = .word 0x1853 ∧
      decodeWord s.params.decodeMode 0x1853 = .ok (.memoryRead 0 3) ∧ step s = .next t ∧ (s.readReg 0).toNat < 1024) ∧
    (∃ s t, runSteps 1 (boot (setup (bytesS1 ++ [0x4A, 0x03, 0, 0, 0, 0]))) = some s ∧ fetch s = .word 0x34A ∧
      decodeWord s.params.decodeMode 0x34A = .ok (.bitwiseOr 3 0 0) ∧ step s = .next t ∧ (0#27).toNat < 1024) :=
  ⟨⟨_, _, rfl, by decide, by decide, rfl, by decide⟩, ⟨_, _, rfl, by decide, by decide, rfl, by decide⟩⟩

theorem witness_StoresNeverReachFetch : ∃ t, step (edge [0x35, 0x02, 0x10, 0, 0, 0]) = .next t := ⟨_, rfl⟩

theorem witness_EveryStepKeepsTheStateSound :
    (edge [0x35, 0x02, 0x10, 0, 0, 0]).Sound ∧ ∃ t, step (edge [0x35, 0x02, 0x10, 0, 0, 0]) = .next t :=
  ⟨⟨by decide, by decide⟩, _, rfl⟩

theorem witness_EveryStepKeepsValuesBelowTheBound :
    (boot (setup bytesS1)).Sound ∧
    (boot (setup bytesS1)).ValuesBelow (Config.immBits (boot (setup bytesS1)).params.decodeMode) ∧
    ∃ t, step (boot (setup bytesS1)) = .next t :=
  ⟨⟨by decide, by decide⟩, ⟨by decide, fun a => by simp [boot, State.readCell]⟩, _, rfl⟩

theorem witness_WrappingAndExactSumAgreeUnderTheBound :
    let s := (boot (setup [])).writeReg 1 (BitVec.ofNat 32 (2 ^ 24 - 1))
    s.ValuesBelow (Config.immBits s.params.decodeMode) := by
  refine ⟨by decide, fun a => ?_⟩
  simp [boot, State.readCell]

theorem witness_UpperSlotsAreOutOfReach :
    SameButUpperSlots (edge bytesS1) { edge bytesS1 with x := (edge bytesS1).x.set 8 1 } ∧
    (∃ t, step (edge bytesS1) = .next t) ∧ ∃ t, runSteps 1 (boot (setup bytesS1)) = some t :=
  ⟨⟨by decide, rfl, rfl, rfl, rfl, rfl, rfl⟩, ⟨_, rfl⟩, _, rfl⟩

theorem witness_StepDependsOnlyOnStateStreamAndMode :
    let h := setup bytesS1
    let g := { h with params := { h.params with windowStart := -2, windowEnd := 1, verboseTrace := true } }
    SameMachine (boot h) (boot g) ∧ (∃ t, step (boot h) = .next t) ∧ SameMachine State.reset (boot (setup [])) ∧
    step State.reset = .fault .endOfStream ∧ step (boot (setup [0])) = .refused .streamFragment ∧
    g.stream = h.stream ∧ g.params.decodeMode = h.params.decodeMode ∧ ∃ t, runSteps 1 (boot h) = some t :=
  ⟨⟨rfl, rfl, rfl, rfl, rfl⟩, ⟨_, rfl⟩, ⟨rfl, rfl, rfl, rfl, rfl⟩, rfl, rfl, rfl, rfl, _, rfl⟩

theorem witness_TraceShowsEveryExecutedInstruction :
    let s := edge bytesS1
    let on := fun s : State => { s with params := { s.params with verboseTrace := true } }
    s.params.verboseTrace = false ∧ (∃ t, step s = .next t) ∧ (on s).params.verboseTrace = true ∧
    (∃ t, step (on s) = .next t ∧ t.condOut = some .ok) ∧
    (∃ t, step (on (edge [0, 0, 0, 0, 0, 0])) = .next t ∧ t.condOut ≠ some .ok) := by
  refine ⟨rfl, ⟨_, rfl⟩, rfl, ⟨_, rfl, ?_⟩, ⟨_, rfl, ?_⟩⟩
  · rw [State.retire_condOut]; rfl
  · rw [State.skipWord_condOut]; decide

theorem witness_ARunExecutesEveryWordOnceInOrder :
    let h := setup (bytesS1 ++ bytesS1)
    startRun h = some (boot h) ∧ h.stream.length = 6 * 2 := by decide

theorem witness_AFragmentRunHasNoFinalState :
    let h := setup (bytesS1 ++ [0xC3])
    startRun h = some (boot h) ∧ h.stream.length % 6 ≠ 0 := by decide

theorem witness_TheReportListsTheClampedWindow :
    let s := { State.reset with params := { Params.initial with windowStart := 7, windowEnd := 4 } }
    s.params.windowEnd < s.params.windowStart ∧
    (0, 0) ∈ resultReport { State.reset with params := { Params.initial with windowStart := -2, windowEnd := 1 } } := by
  decide

theorem witness_AFailedOpenMeansNoRun :
    startRun (setup bytesS1) = some (boot (setup bytesS1)) ∧ (setup bytesS1).stream.length % 6 = 0 ∧
    startRun { setup bytesS1 with inputOpens := false } = none ∧
    startRun { setup bytesS1 with outputOpens := false } = none := by decide

/-- R203: a failed open aborts before any instruction, whatever the stream. -/
theorem test_failed_open_aborts :
    runToEnd { setup bytesS1 with inputOpens := false } = .aborted ∧
    runToEnd { setup [0xC3] with outputOpens := false } = .aborted := by decide

/-- The two instructions of `test_assemble_source_order`, and a rest. -/
theorem witness_AssemblerWritesOneWordPerInstruction :
    let first : SourceInstr :=
      { mnemonic := mnemonicLoadConstant, operands := ["R4,".toList, "#187".toList], instr := .loadConstant 4 187 }
    let second : SourceInstr :=
      { mnemonic := mnemonicMemoryWrite, operands := ["[R1".toList, "+".toList, "144],".toList, "R6".toList],
        instr := .memoryWrite 6 144 1 }
    (∀ p ∈ [first, second], parseInstr .strict p.mnemonic p.operands = some p.instr) ∧
    tokenize "LOAD_CONSTANT R4, #187\nMEMORY_WRITE [R1 + 144], R6 OR".toList =
      ([first, second].map SourceInstr.tokens).flatten ++ [mnemonicOr] := by decide

theorem witness_AssemblyStopsAtTheFirstError :
    (assembleTokens .strict 3 [['O', 'R'], ['R', '1']]).error =
      some { instruction := ['O', 'R'], rawTokens := [['O', 'R'], ['R', '1']] } := by decide

theorem witness_AssembledLoadConstantRunsAsWritten :
    let h := setup (encodeBytes (.loadConstant 7 67108863))
    startRun h = some (boot h) ∧
    h.stream = (assemble (sourceLoadConstant (7#3).toNat (67108863#26).toNat)).binary := by decide

end Sys2Proof.Tests
end

section
/-! The reset values and the fetched word (10_state.md R33, R35). -/

namespace Sys2Proof.Machine

/-! ## Reset -/

theorem getSlot_reset (k : Fin 32) : State.reset.x[k] = 0 := by simp

@[simp] theorem readReg_reset (r : RegField) : State.reset.readReg r = 0 := getSlot_reset (regSlot r)

@[simp] theorem readCell_reset (a : Nat) : State.reset.readCell a = 0 := rfl

/-! A boot supplies the stream and the parameters and leaves the rest at its reset value (R203). -/
@[simp] theorem boot_x (h : HostSetup) : (boot h).x = State.reset.x := rfl
@[simp] theorem boot_mem (h : HostSetup) : (boot h).mem = State.reset.mem := rfl
@[simp] theorem boot_pc (h : HostSetup) : (boot h).pc = 0 := rfl
@[simp] theorem boot_stream (h : HostSetup) : (boot h).stream = h.stream := rfl
@[simp] theorem boot_params (h : HostSetup) : (boot h).params = h.params := rfl
@[simp] theorem boot_condOut (h : HostSetup) : (boot h).condOut = none := rfl
@[simp] theorem boot_conditions (h : HostSetup) : (boot h).conditions = [] := rfl

theorem getSlot_boot (h : HostSetup) (k : Fin 32) : (boot h).x[k] = 0 := getSlot_reset k

@[simp] theorem readCell_boot (h : HostSetup) (a : Nat) : (boot h).readCell a = 0 := readCell_reset a

/-- Settles O1: the values of State.reset, and those of a boot, which keeps them. -/
theorem resetHoldsTheResetValues : Obligations.ResetHoldsTheResetValues := by
  intro h s hs
  rcases List.mem_pair.1 hs with rfl | rfl
  · exact ⟨getSlot_reset, readCell_reset, rfl, rfl, rfl⟩
  · exact ⟨getSlot_boot h, readCell_boot h, boot_pc h, boot_condOut h, boot_conditions h⟩

/-! ## The fetched word -/

theorem leNat_lt (bs : List Byte) : leNat bs < 256 ^ bs.length := by
  induction bs with
  | nil => simp [leNat]
  | cons b bs ih =>
    have hb : b.toNat < 256 := b.isLt
    rw [leNat, List.length_cons, Nat.pow_succ]
    omega

/-- The number that the first `n` bytes spell, as a sum over the byte positions; a position past the end counts as 0. -/
theorem leNat_take_eq_sum (n : Nat) (bs : List Byte) :
    leNat (bs.take n) = ∑ k ∈ Finset.range n, (bs.getD k 0).toNat * 256 ^ k := by
  induction n generalizing bs with
  | zero => simp [leNat]
  | succ n ih =>
    cases bs with
    | nil => simp [leNat]
    | cons b bs =>
      rw [List.take_succ_cons, leNat, ih, Finset.sum_range_succ', Finset.mul_sum, Nat.add_comm]
      congr 1
      · exact Finset.sum_congr rfl fun k _ => by rw [List.getD_cons_succ]; ring
      · simp

/-- Six bytes always fit the 48 bits of a code word. -/
theorem toNat_wordOfBytes {bs : List Byte} (h : bs.length ≤ 6) : (wordOfBytes bs).toNat = leNat bs := by
  have hlt : leNat bs < 2 ^ 48 :=
    calc leNat bs < 256 ^ bs.length := leNat_lt bs
      _ ≤ 256 ^ 6 := Nat.pow_le_pow_right (by decide) h
      _ = 2 ^ 48 := by decide
  rw [wordOfBytes, BitVec.toNat_ofNat, Nat.mod_eq_of_lt hlt]

theorem toNat_wordAtPosition (s : State) :
    (wordAtPosition s).toNat =
      ∑ k ∈ Finset.range 6, (s.stream.getD (s.byteOffset + k) 0).toNat * 256 ^ k := by
  have hlen : ((s.stream.drop s.byteOffset).take Config.wordBytes).length ≤ 6 := List.length_take_le _ _
  rw [wordAtPosition, toNat_wordOfBytes hlen, Config.wordBytes, leNat_take_eq_sum]
  simp only [List.getD_eq_getElem?_getD, List.getElem?_drop]

/-- Settles O11: the word at the position is the sum over its six bytes. -/
theorem fetchedWordIsLittleEndian : Obligations.FetchedWordIsLittleEndian := by
  intro s hs
  refine ⟨wordAtPosition s, fetch_eq_word hs, ?_⟩
  rw [toNat_wordAtPosition, State.byteOffset, Config.wordBytes]
  simp [Finset.sum_range_succ]

end Sys2Proof.Machine
end

section
/-! What an instruction does, as data: `exec` and `step` apply one effect, and the effect is computed from the registers of
the table (10_state.md R23) and the memory. Frame lemmas and independence lemmas are then case splits over the effect. -/

namespace Sys2Proof.Machine

/-- The one thing an instruction, or the skipping of a word, does to the state before the step's end. -/
inductive Effect where
  | writeReg (r : RegField) (v : Word)
  | writeCell (a : Nat) (v : Word)
  | raise (c : Condition)

namespace Effect

variable {e : Effect} {s u : State} {r : RegField}

/-- The effect with its report (40_decode_dispatch.md R110). -/
def apply : Effect → State → State
  | writeReg r v, s => (s.writeReg r v).reportOk
  | writeCell a v, s => (s.writeCell a v).reportOk
  | raise c, s => s.raise c

/-- The register an effect writes. -/
def target : Effect → Option RegField
  | writeReg r _ => some r
  | writeCell _ _ => none
  | raise _ => none

/-- The access controller's choice between an effect and the condition (42_memory_access.md R141). -/
def guarded (a : Nat) (info : Condition) (e : Effect) : Effect := if a < Config.memCells then e else .raise info

theorem guarded_valid {a : Nat} {info : Condition} (h : a < Config.memCells) : guarded a info e = e := if_pos h

theorem guarded_invalid {a : Nat} {info : Condition} (h : Config.memCells ≤ a) : guarded a info e = .raise info :=
  if_neg (Nat.not_lt.2 h)

theorem access_eq_apply_guarded (a : Nat) (info : Condition) {f : State → State} (hf : (f s).reportOk = e.apply s) :
    s.access a info f = .next ((guarded a info e).apply s) := by
  rcases Nat.lt_or_ge a Config.memCells with h | h
  · rw [access_valid h, guarded_valid h, hf]
  · rw [access_invalid h, guarded_invalid h, apply]

theorem target_guarded (a : Nat) (info : Condition) (e : Effect) :
    (guarded a info e).target = e.target ∨ ∃ c, guarded a info e = .raise c := by
  rcases Nat.lt_or_ge a Config.memCells with h | h
  · exact .inl (by rw [guarded_valid h])
  · exact .inr ⟨info, guarded_invalid h⟩

/-- An effect changes no slot but its target. -/
theorem getSlot_apply {k : Fin 32} (h : ∀ r, e.target = some r → k ≠ regSlot r) : (e.apply s).x[k] = s.x[k] := by
  cases e with
  | writeReg r v => rw [apply, State.reportOk_x, getSlot_writeReg, if_neg (h r rfl)]
  | writeCell a v => rfl
  | raise c => rfl

/-- No register field names a slot above `x[7]` (R21). -/
theorem getSlot_apply_of_upper {k : Fin 32} (hk : 8 ≤ k.val) : (e.apply s).x[k] = s.x[k] :=
  getSlot_apply fun r _ hkr => absurd (regSlot_lt r) (by rw [← hkr]; omega)

theorem apply_x_of_not_ok (h : (e.apply s).condOut ≠ some .ok) : (e.apply s).x = s.x := by
  cases e with
  | writeReg r v => exact absurd rfl h
  | writeCell a v => exact absurd rfl h
  | raise c => rfl

theorem apply_condOut_congr (s u : State) : (e.apply u).condOut = (e.apply s).condOut := by cases e <;> rfl

theorem apply_mem_congr (h : u.mem = s.mem) : (e.apply u).mem = (e.apply s).mem := by
  cases e with
  | writeReg r v => exact h
  | writeCell a v => exact congrArg (Memory.write · a v) h
  | raise c => exact h

/-- What a write leaves in its register does not depend on the state. -/
theorem readReg_apply_congr (s u : State) (h : e.target = some r) : (e.apply u).readReg r = (e.apply s).readReg r := by
  cases e with
  | writeReg q v =>
    obtain rfl : q = r := Option.some.inj h
    simp [apply, readReg_writeReg]
  | writeCell a v => cases h
  | raise c => cases h

/-- One effect on two states that agree below `x[8]` leaves states that agree below `x[8]`. -/
theorem apply_sameButUpperSlots (h : SameButUpperSlots s u) : SameButUpperSlots (e.apply s) (e.apply u) := by
  obtain ⟨hreg, hmem, hpc, hstream, hparams, hout, hconds⟩ := h
  cases e with
  | writeReg r v => exact ⟨fun q => by simp [apply, readReg_writeReg, hreg], hmem, hpc, hstream, hparams, rfl, hconds⟩
  | writeCell a v => exact ⟨hreg, congrArg (Memory.write · a v) hmem, hpc, hstream, hparams, rfl, hconds⟩
  | raise c => exact ⟨hreg, hmem, hpc, hstream, hparams, rfl, congrArg (· ++ [c]) hconds⟩

end Effect

/-! ## The effect of an instruction -/

/-- The effect of each instruction's rule (R130, R142, R143, R161). -/
def effectOf : Instr → State → Effect
  | .loadConstant b c, _ => .writeReg b (immediate c)
  | .memoryRead b c, s =>
    .guarded (addrRegister b s) (.outOfBounds Config.tagMemoryRead b c.toNat none (addrRegister b s))
      (.writeReg c (s.readCell (addrRegister b s)))
  | .memoryWrite b c d, s =>
    .guarded (addrBaseOffset d c s) (.outOfBounds Config.tagMemoryWrite b c.toNat (some d) (addrBaseOffset d c s))
      (.writeCell (addrBaseOffset d c s) (s.readReg b))
  | .bitwiseOr b c d, s =>
    .guarded (addrAbsolute c) (.outOfBounds Config.tagBitwiseOr b c.toNat (some d) (addrAbsolute c))
      (.writeReg b (aluOr (s.readReg d) (s.readCell (addrAbsolute c))))

variable {s t u : State} {i : Instr}

theorem exec_eq_apply (i : Instr) (s : State) : exec i s = .next ((effectOf i s).apply s) := by
  cases i with
  | loadConstant b c => rfl
  | memoryRead b c => exact Effect.access_eq_apply_guarded _ _ rfl
  | memoryWrite b c d => exact Effect.access_eq_apply_guarded _ _ rfl
  | bitwiseOr b c d => exact Effect.access_eq_apply_guarded _ _ rfl

theorem exec_next_iff : exec i s = .next t ↔ t = (effectOf i s).apply s := by
  rw [exec_eq_apply, Host.Outcome.next.injEq, eq_comm]

/-- An instruction writes the register of the table's write column, or raises a condition. -/
theorem target_effectOf (i : Instr) (s : State) :
    (effectOf i s).target = writesReg i ∨ ∃ c, effectOf i s = .raise c := by
  cases i with
  | loadConstant b c => exact .inl rfl
  | memoryRead b c => exact Effect.target_guarded _ _ _
  | memoryWrite b c d => exact Effect.target_guarded _ _ _
  | bitwiseOr b c d => exact Effect.target_guarded _ _ _

theorem writesReg_of_target {r : RegField} (h : (effectOf i s).target = some r) : writesReg i = some r := by
  rcases target_effectOf i s with ht | ⟨c, hc⟩
  · exact ht ▸ h
  · rw [hc] at h; cases h

theorem target_of_ok (h : ((effectOf i s).apply s).condOut = some .ok) : (effectOf i s).target = writesReg i := by
  rcases target_effectOf i s with ht | ⟨c, hc⟩
  · exact ht
  · rw [hc] at h; cases h

/-- The effect is computed from the registers of the table's read column and the memory. -/
theorem effectOf_congr (hreg : ∀ r ∈ readsRegs i, u.readReg r = s.readReg r) (hmem : u.mem = s.mem) :
    effectOf i u = effectOf i s := by
  cases i with
  | loadConstant b c => rfl
  | memoryRead b c =>
    have hb : u.readReg b = s.readReg b := hreg b (by simp [readsRegs])
    simp only [effectOf, addrRegister, State.readCell, hb, hmem]
  | memoryWrite b c d =>
    have hd : u.readReg d = s.readReg d := hreg d (by simp [readsRegs])
    have hb : u.readReg b = s.readReg b := hreg b (by simp [readsRegs])
    simp only [effectOf, addrBaseOffset, hd, hb]
  | bitwiseOr b c d =>
    have hd : u.readReg d = s.readReg d := hreg d (by simp [readsRegs])
    simp only [effectOf, State.readCell, hd, hmem]

/-! ## The effect of a step -/

/-- The effect of a fetched word: its instruction's, or the condition of R114. -/
def wordEffect (w : CodeWord) (s : State) : Effect :=
  match decodeWord s.params.decodeMode w with
  | .ok i => effectOf i s
  | .error _ => .raise (.invalidOpcode (fieldTag w) w)

theorem stepWord_eq_apply (w : CodeWord) (s : State) :
    stepWord w s =
      .next (((wordEffect w s).apply s).retire (decodeWord s.params.decodeMode w).toOption) := by
  unfold stepWord wordEffect
  cases decodeWord s.params.decodeMode w with
  | ok i => exact congrArg (retireOutcome i) (exec_eq_apply i s)
  | error e => rfl

theorem step_next_iff :
    step s = .next t ↔ ∃ w, fetch s = .word w ∧
      t = ((wordEffect w s).apply s).retire (decodeWord s.params.decodeMode w).toOption := by
  constructor
  · intro h
    obtain ⟨w, hw, -⟩ := step_cases h
    rw [step, hw, stepFetched, stepWord_eq_apply, Host.Outcome.next.injEq] at h
    exact ⟨w, hw, h.symm⟩
  · rintro ⟨w, hw, rfl⟩
    rw [step, hw, stepFetched, stepWord_eq_apply]

theorem fetch_congr (hstream : u.stream = s.stream) (hpc : u.pc = s.pc) : fetch u = fetch s := by
  unfold fetch State.byteOffset
  rw [hstream, hpc]

end Sys2Proof.Machine
end

section
/-! The slots no instruction can name (10_state.md R21). -/

namespace Sys2Proof.Machine

variable {s t u : State}

theorem step_keeps_upper_slots (h : step s = .next t) {k : Fin 32} (hk : 8 ≤ k.val) : t.x[k] = s.x[k] := by
  obtain ⟨w, -, rfl⟩ := step_next_iff.1 h
  rw [State.retire_x, Effect.getSlot_apply_of_upper hk]

theorem wordEffect_of_sameButUpperSlots (h : SameButUpperSlots s u) (w : CodeWord) :
    wordEffect w u = wordEffect w s := by
  obtain ⟨hreg, hmem, -, -, hparams, -, -⟩ := h
  unfold wordEffect
  rw [hparams]
  cases decodeWord s.params.decodeMode w with
  | ok i => exact effectOf_congr (fun r _ => hreg r) hmem
  | error e => rfl

theorem retire_sameButUpperSlots (h : SameButUpperSlots s u) (i j : Option Instr) :
    SameButUpperSlots (s.retire i) (u.retire j) := by
  obtain ⟨hreg, hmem, hpc, hstream, hparams, hout, hconds⟩ := h
  simp [SameButUpperSlots, hreg, hmem, hpc, hstream, hparams, hout, hconds]

theorem step_sameButUpperSlots (h : SameButUpperSlots s u) (hs : step s = .next t) :
    ∃ v, step u = .next v ∧ SameButUpperSlots t v := by
  obtain ⟨w, hw, rfl⟩ := step_next_iff.1 hs
  have hfetch : fetch u = .word w := by
    obtain ⟨-, -, hpc, hstream, -, -, -⟩ := h
    rw [fetch_congr hstream hpc, hw]
  refine ⟨_, step_next_iff.2 ⟨w, hfetch, rfl⟩, retire_sameButUpperSlots ?_ _ _⟩
  rw [wordEffect_of_sameButUpperSlots h]
  exact Effect.apply_sameButUpperSlots h

/-- What every step keeps holds along every run. -/
theorem runSteps_keeps {P : State → Prop} (hstep : ∀ s t, P s → step s = .next t → P t) :
    ∀ {k : Nat} {s t : State}, P s → runSteps k s = some t → P t
  | 0, s, t, hs, h => by cases h; exact hs
  | k + 1, s, t, hs, h => by
    rw [runSteps] at h
    cases hn : step s with
    | next u => exact runSteps_keeps hstep (hstep s u hs hn) (by simpa [hn] using h)
    | fault r => simp [hn] at h
    | refused r => simp [hn] at h

theorem boot_upperSlotsZero (h : HostSetup) : (boot h).UpperSlotsZero := fun k _ => getSlot_boot h k

theorem step_keeps_upperSlotsZero (s t : State) (hs : s.UpperSlotsZero) (h : step s = .next t) : t.UpperSlotsZero :=
  fun k hk => (step_keeps_upper_slots h hk).trans (hs k hk)

/-- Settles O38: the frame of the step, its independence of the upper slots, and the invariant along a run. -/
theorem upperSlotsAreOutOfReach : Obligations.UpperSlotsAreOutOfReach :=
  ⟨fun _ _ h _ hk => step_keeps_upper_slots h hk,
    fun _ _ _ h hs => step_sameButUpperSlots h hs,
    fun h _ _ hrun => runSteps_keeps step_keeps_upperSlotsZero (boot_upperSlotsZero h) hrun⟩

end Sys2Proof.Machine
end

section
/-! The table of register reads and writes (10_state.md R23). -/

namespace Sys2Proof.Machine

variable {s t u v : State} {i : Instr}

theorem exec_writes_only_its_register (i : Instr) (s : State) :
    ∃ t, exec i s = .next t ∧
      (∀ k : Fin 32, (∀ r, writesReg i = some r → k ≠ regSlot r) → t.x[k] = s.x[k]) ∧
      (t.condOut ≠ some .ok → t.x = s.x) :=
  ⟨_, exec_eq_apply i s, fun _ hk => Effect.getSlot_apply fun r hr => hk r (writesReg_of_target hr),
    Effect.apply_x_of_not_ok⟩

theorem exec_depends_only_on_its_reads (hs : exec i s = .next t) (hu : exec i u = .next v)
    (hreg : ∀ r ∈ readsRegs i, u.readReg r = s.readReg r) (hmem : u.mem = s.mem) :
    v.condOut = t.condOut ∧ v.mem = t.mem ∧
      (t.condOut = some .ok → ∀ r, writesReg i = some r → v.readReg r = t.readReg r) := by
  obtain rfl := exec_next_iff.1 hs
  obtain rfl := exec_next_iff.1 hu
  rw [effectOf_congr hreg hmem]
  exact ⟨Effect.apply_condOut_congr s u, Effect.apply_mem_congr hmem,
    fun hok r hr => Effect.readReg_apply_congr s u ((target_of_ok hok).trans hr)⟩

/-! ## Every entry of the table is a real read or write -/

/-- A BITWISE_OR that completes anywhere has a valid address, which no state changes. -/
theorem address_valid_of_bitwiseOr_ok {b d : RegField} {c : BitVec 27} (h : exec (.bitwiseOr b c d) s = .next t)
    (hok : t.condOut = some .ok) : addrAbsolute c < Config.memCells := by
  rcases access_cases h with ⟨ha, -⟩ | ⟨-, rfl⟩
  · exact ha
  · cases hok

/-- The instruction changes the register it writes in some state. -/
theorem exec_changes_its_register {r : RegField} (hs : exec i s = .next t) (hok : t.condOut = some .ok)
    (hr : writesReg i = some r) : ∃ s t, exec i s = .next t ∧ t.readReg r ≠ s.readReg r := by
  cases i with
  | loadConstant b c =>
    obtain rfl : b = r := Option.some.inj hr
    refine ⟨State.reset.writeReg b (immediate c + 1), _, rfl, ?_⟩
    simp [readReg_writeReg]
  | memoryRead b c =>
    obtain rfl : c = r := Option.some.inj hr
    have ha : addrRegister b (State.reset.writeReg c 1) < Config.memCells := by
      rw [addrRegister, readReg_writeReg]
      split <;> simp [Config.memCells]
    refine ⟨State.reset.writeReg c 1, _, access_valid ha, ?_⟩
    simp [readReg_writeReg]
  | memoryWrite b c d => cases hr
  | bitwiseOr b c d =>
    obtain rfl : b = r := Option.some.inj hr
    refine ⟨State.reset.writeCell (addrAbsolute c) 1, _, access_valid (address_valid_of_bitwiseOr_ok hs hok), ?_⟩
    simp [readReg_writeReg, readCell_writeCell (s := State.reset) rfl, aluOr]

/-- There is a state where changing register `r` alone changes the report, a cell or the written value of `i`. -/
def SourceMatters (i : Instr) (r : RegField) : Prop :=
  ∃ (s : State) (n : Word) (t v : State), exec i s = .next t ∧ exec i (s.writeReg r n) = .next v ∧
    (v.condOut ≠ t.condOut ∨ (∃ a, v.readCell a ≠ t.readCell a) ∨
      ∃ q, writesReg i = some q ∧ v.readReg q ≠ t.readReg q)

/-- A base of 0 is a valid address, a base of 1024 is none. -/
theorem memoryRead_base_matters (b c : RegField) : SourceMatters (.memoryRead b c) b := by
  have hlo : addrRegister b State.reset < Config.memCells := by simp [addrRegister, Config.memCells]
  have hhi : Config.memCells ≤ addrRegister b (State.reset.writeReg b 1024) := by
    simp [addrRegister, readReg_writeReg, Config.memCells]
  exact ⟨State.reset, 1024, _, _, access_valid hlo, access_invalid hhi, .inl (by simp)⟩

/-- From reset the address is the 9-bit offset. -/
theorem addrBaseOffset_reset_lt (d : RegField) (c : BitVec 9) : addrBaseOffset d c State.reset < Config.memCells := by
  have hc : c.toNat < 1024 := Nat.lt_trans c.isLt (by decide)
  simpa [addrBaseOffset, Config.memCells] using hc

theorem memoryWrite_base_matters (b : RegField) (c : BitVec 9) (d : RegField) :
    SourceMatters (.memoryWrite b c d) d := by
  have hhi : Config.memCells ≤ addrBaseOffset d c (State.reset.writeReg d 1024) := by
    simp [addrBaseOffset, readReg_writeReg, Config.memCells]
  exact ⟨State.reset, 1024, _, _, access_valid (addrBaseOffset_reset_lt d c), access_invalid hhi, .inl (by simp)⟩

/-- Storing 1 in place of 0 at the same cell. -/
theorem memoryWrite_source_matters {b d : RegField} (hbd : b ≠ d) (c : BitVec 9) :
    SourceMatters (.memoryWrite b c d) b := by
  have hlo := addrBaseOffset_reset_lt d c
  have hsame : addrBaseOffset d c (State.reset.writeReg b 1) = addrBaseOffset d c State.reset := by
    rw [addrBaseOffset, readReg_writeReg, if_neg hbd.symm, addrBaseOffset]
  refine ⟨State.reset, 1, _, _, access_valid hlo, access_valid (hsame ▸ hlo),
    .inr (.inl ⟨addrBaseOffset d c State.reset, ?_⟩)⟩
  rw [readCell_reportOk, readCell_reportOk, hsame, readCell_writeCell (s := State.reset.writeReg b 1) rfl,
    readCell_writeCell (s := State.reset) rfl, if_pos rfl, if_pos rfl]
  simp [readReg_writeReg]

/-- The or with an unwritten cell is the source register. -/
theorem bitwiseOr_source_matters (b d : RegField) {c : BitVec 27} (hc : addrAbsolute c < Config.memCells) :
    SourceMatters (.bitwiseOr b c d) d := by
  refine ⟨State.reset, 1, _, _, access_valid hc, access_valid hc, .inr (.inr ⟨b, rfl, ?_⟩)⟩
  simp [readReg_writeReg, aluOr]

theorem sourceMatters_of_mem_readsRegs {r : RegField} (hs : exec i s = .next t) (hok : t.condOut = some .ok)
    (hr : r ∈ readsRegs i) : SourceMatters i r := by
  cases i with
  | loadConstant b c => cases hr
  | memoryRead b c =>
    obtain rfl := List.mem_singleton.1 hr
    exact memoryRead_base_matters r c
  | memoryWrite b c d =>
    by_cases hrd : r = d
    · exact hrd ▸ memoryWrite_base_matters b c d
    · obtain rfl : r = b := (List.mem_pair.1 hr).resolve_left hrd
      exact memoryWrite_source_matters hrd c
  | bitwiseOr b c d =>
    obtain rfl := List.mem_singleton.1 hr
    exact bitwiseOr_source_matters b r (address_valid_of_bitwiseOr_ok hs hok)

/-- Settles O25: the frame and the independence of `exec`, and states in which each entry of the table is seen. -/
theorem instructionsReadAndWriteTheirRegistersOnly : Obligations.InstructionsReadAndWriteTheirRegistersOnly :=
  ⟨exec_writes_only_its_register,
    fun _ _ _ _ _ hs hu hreg hmem => exec_depends_only_on_its_reads hs hu hreg hmem,
    fun _ ⟨_, _, hs, hok⟩ =>
      ⟨fun _ hr => exec_changes_its_register hs hok hr, fun _ hr => sourceMatters_of_mem_readsRegs hs hok hr⟩⟩

end Sys2Proof.Machine
end

section
/-! The data memory along a step and along a run, and its separation from the stream (20_memory.md R58, R61). -/

namespace Sys2Proof.Machine

variable {s t : State} {i : Instr} {w : CodeWord}

/-! ## The store of an effect -/

namespace Effect

variable {e : Effect}

/-- The store an effect makes, if it makes one. -/
def store : Effect → Option (Nat × Word)
  | writeReg _ _ => none
  | writeCell a v => some (a, v)
  | raise _ => none

@[simp] theorem store_writeReg (r : RegField) (v : Word) : (writeReg r v).store = none := rfl
@[simp] theorem store_writeCell (a : Nat) (v : Word) : (writeCell a v).store = some (a, v) := rfl
@[simp] theorem store_raise (c : Condition) : (raise c).store = none := rfl

theorem store_guarded (a : Nat) (info : Condition) (e : Effect) :
    (guarded a info e).store = if a < Config.memCells then e.store else none := by
  rcases Nat.lt_or_ge a Config.memCells with h | h
  · rw [guarded_valid h, if_pos h]
  · rw [guarded_invalid h, if_neg (Nat.not_lt.2 h), store_raise]

@[simp] theorem apply_stream (e : Effect) (s : State) : (e.apply s).stream = s.stream := by cases e <;> rfl

theorem apply_keeps_mem_wf (hs : s.mem.wf = true) (he : ∀ p, e.store = some p → p.1 < Config.memCells) :
    (e.apply s).mem.wf = true := by
  cases e with
  | writeReg r v => exact hs
  | writeCell a v => exact Memory.write_wf (he (a, v) rfl) hs
  | raise c => exact hs

end Effect

/-! ## The store of a step -/

@[simp] theorem store_effectOf_loadConstant (b : RegField) (c : BitVec 26) (s : State) :
    (effectOf (.loadConstant b c) s).store = none := rfl

@[simp] theorem store_effectOf_memoryRead (b c : RegField) (s : State) :
    (effectOf (.memoryRead b c) s).store = none := by
  rw [effectOf, Effect.store_guarded, Effect.store_writeReg, ite_self]

@[simp] theorem store_effectOf_memoryWrite (b : RegField) (c : BitVec 9) (d : RegField) (s : State) :
    (effectOf (.memoryWrite b c d) s).store =
      if addrBaseOffset d c s < Config.memCells then some (addrBaseOffset d c s, s.readReg b) else none := by
  rw [effectOf, Effect.store_guarded, Effect.store_writeCell]

@[simp] theorem store_effectOf_bitwiseOr (b : RegField) (c : BitVec 27) (d : RegField) (s : State) :
    (effectOf (.bitwiseOr b c d) s).store = none := by
  rw [effectOf, Effect.store_guarded, Effect.store_writeReg, ite_self]

/-- An instruction stores only where its access is valid (R141). -/
theorem store_effectOf_valid {p : Nat × Word} (h : (effectOf i s).store = some p) : p.1 < Config.memCells := by
  cases i with
  | loadConstant b c => cases h
  | memoryRead b c => simp at h
  | memoryWrite b c d =>
    rw [store_effectOf_memoryWrite, Option.ite_none_right_eq_some] at h
    obtain ⟨ha, hp⟩ := h
    exact Option.some.inj hp ▸ ha
  | bitwiseOr b c d => simp at h

theorem store_wordEffect_valid {p : Nat × Word} (h : (wordEffect w s).store = some p) : p.1 < Config.memCells := by
  unfold wordEffect at h
  split at h
  · exact store_effectOf_valid h
  · cases h

/-- `storeOf` is the store of the step's effect. -/
theorem storeOf_eq_store (h : fetch s = .word w) : storeOf s = (wordEffect w s).store := by
  unfold storeOf wordEffect
  cases hd : decodeWord s.params.decodeMode w with
  | error e => simp [h, hd]
  | ok i => cases i <;> simp [h, hd]

/-- Every step keeps the memory in canonical form. -/
theorem step_keeps_mem_wf (s t : State) (hs : s.mem.wf = true) (h : step s = .next t) : t.mem.wf = true := by
  obtain ⟨w, -, rfl⟩ := step_next_iff.1 h
  rw [State.retire_mem]
  exact Effect.apply_keeps_mem_wf hs fun _ => store_wordEffect_valid

/-! ## The last store to a cell -/

/-- What cell `a` holds after `stores`, oldest first, if it held `v` before them. -/
def cellAfterStores (a : Nat) (v : Word) (stores : List (Nat × Word)) : Word :=
  stores.foldl (fun v st => if st.1 = a then st.2 else v) v

theorem lastStoreTo_eq (a : Nat) (stores : List (Nat × Word)) :
    lastStoreTo a stores = cellAfterStores a 0 stores := rfl

theorem cellAfterStores_append (a : Nat) (v : Word) (first later : List (Nat × Word)) :
    cellAfterStores a v (first ++ later) = cellAfterStores a (cellAfterStores a v first) later :=
  List.foldl_append

theorem readCell_apply (hs : s.mem.wf = true) (e : Effect) (a : Nat) :
    (e.apply s).readCell a = cellAfterStores a (s.readCell a) e.store.toList := by
  cases e with
  | writeReg r v => rfl
  | writeCell b v => exact readCell_writeCell hs a
  | raise c => rfl

/-- A step leaves in each cell what its own store leaves there. -/
theorem readCell_step (hs : s.mem.wf = true) (h : step s = .next t) (a : Nat) :
    t.readCell a = cellAfterStores a (s.readCell a) (storeOf s).toList := by
  obtain ⟨w, hw, rfl⟩ := step_next_iff.1 h
  rw [readCell_retire, readCell_apply hs, storeOf_eq_store hw]

/-! ## Runs -/

theorem runSteps_succ_iff {k : Nat} :
    runSteps (k + 1) s = some t ↔ ∃ u, step s = .next u ∧ runSteps k u = some t := by
  rw [runSteps]
  cases step s <;> simp

theorem storesInRun_succ (k : Nat) (h : step s = .next t) :
    storesInRun (k + 1) s = (storeOf s).toList ++ storesInRun k t := by
  rw [storesInRun, h]

/-- A run leaves in each cell what its stores, in stream order, leave there. -/
theorem readCell_runSteps {k : Nat} (hs : s.mem.wf = true) (h : runSteps k s = some t) (a : Nat) :
    t.readCell a = cellAfterStores a (s.readCell a) (storesInRun k s) := by
  induction k generalizing s with
  | zero => cases h; rfl
  | succ k ih =>
    obtain ⟨u, hu, hrun⟩ := runSteps_succ_iff.1 h
    rw [storesInRun_succ k hu, cellAfterStores_append, ← readCell_step hs hu]
    exact ih (step_keeps_mem_wf s u hs hu) hrun

theorem readCell_runSteps_boot {h : HostSetup} {k : Nat} (hrun : runSteps k (boot h) = some s) (a : Nat) :
    s.readCell a = lastStoreTo a (storesInRun k (boot h)) := by
  rw [readCell_runSteps rfl hrun, readCell_boot, lastStoreTo_eq]

/-! ## Reads -/

theorem step_of_decoded (hw : fetch s = .word w) (hd : decodeWord s.params.decodeMode w = .ok i)
    (h : step s = .next t) : t = ((effectOf i s).apply s).retire (some i) := by
  rw [step, hw, stepFetched, stepWord_eq_apply, wordEffect, hd, Host.Outcome.next.injEq] at h
  exact h.symm

/-- MEMORY_READ of a valid cell leaves that cell's value in its destination (R142). -/
theorem step_memoryRead {b c : RegField} (hw : fetch s = .word w)
    (hd : decodeWord s.params.decodeMode w = .ok (.memoryRead b c)) (h : step s = .next t)
    (ha : addrRegister b s < Config.memCells) : t.readReg c = s.readCell (addrRegister b s) := by
  rw [step_of_decoded hw hd h, effectOf, Effect.guarded_valid ha]
  simp [Effect.apply, readReg_writeReg]

/-- BITWISE_OR with a valid cell leaves the or with that cell's value in its destination (R161). -/
theorem step_bitwiseOr {b d : RegField} {c : BitVec 27} (hw : fetch s = .word w)
    (hd : decodeWord s.params.decodeMode w = .ok (.bitwiseOr b c d)) (h : step s = .next t)
    (ha : addrAbsolute c < Config.memCells) :
    t.readReg b = aluOr (s.readReg d) (s.readCell (addrAbsolute c)) := by
  rw [step_of_decoded hw hd h, effectOf, Effect.guarded_valid ha]
  simp [Effect.apply, readReg_writeReg]

/-- Settles O33: the cells along a run, by induction on the steps, and the two instructions that read one. -/
theorem readsReturnTheMostRecentStore : Obligations.ReadsReturnTheMostRecentStore := by
  intro h k s hrun
  have hcell := readCell_runSteps_boot hrun
  exact ⟨hcell, fun _ _ _ _ hw hd hs ha => (step_memoryRead hw hd hs ha).trans (hcell _),
    fun b c d w t hw hd hs ha => (step_bitwiseOr hw hd hs ha).trans (congrArg (aluOr (s.readReg d)) (hcell _))⟩

/-! ## The stream -/

theorem step_keeps_stream (h : step s = .next t) : t.stream = s.stream := by
  obtain ⟨w, -, rfl⟩ := step_next_iff.1 h
  rw [State.retire_stream, Effect.apply_stream]

/-- Settles O34: fetch is a function of the stream and the position, and no step writes the stream. -/
theorem storesNeverReachFetch : Obligations.StoresNeverReachFetch := by
  refine ⟨fun s m => fetch_congr rfl rfl, fun s t h => ?_⟩
  have hstream : t.stream = s.stream := step_keeps_stream h
  exact ⟨hstream, fun n => fetch_congr hstream rfl⟩

end Sys2Proof.Machine
end

section
/-! Encode and decode (30_encoding.md R71 to R84, R96), and the step on a word with no instruction (R80, R114). -/

namespace Sys2Proof.Machine

variable {mode : DecodeMode} {w : CodeWord} {s : State}

/-! ## The tag selects the instruction -/

theorem bitSlice_tag (w : CodeWord) : bitSlice w 7 0 = (fieldTag w).toNat := by
  simp [bitSlice, fieldTag]

theorem fieldTag_eq_of_bitSlice {tag : Tag} (h : bitSlice w 7 0 = tag.toNat) : fieldTag w = tag :=
  BitVec.eq_of_toNat_eq ((bitSlice_tag w).symm.trans h)

theorem decodeWord_of_tagLoadConstant (h : fieldTag w = Config.tagLoadConstant) :
    decodeWord mode w = .ok (.loadConstant (fieldB w) (fieldImmediate mode w)) := by
  rw [decodeWord, if_pos h]

theorem decodeWord_of_tagMemoryRead (h : fieldTag w = Config.tagMemoryRead) :
    decodeWord mode w = .ok (.memoryRead (fieldB w) (fieldDestination w)) := by
  rw [decodeWord, if_neg (h ▸ by decide), if_pos h]

theorem decodeWord_of_tagMemoryWrite (h : fieldTag w = Config.tagMemoryWrite) :
    decodeWord mode w = .ok (.memoryWrite (fieldB w) (fieldOffset w) (fieldBase w)) := by
  rw [decodeWord, if_neg (h ▸ by decide), if_neg (h ▸ by decide), if_pos h]

theorem decodeWord_of_tagBitwiseOr (h : fieldTag w = Config.tagBitwiseOr) :
    decodeWord mode w = .ok (.bitwiseOr (fieldB w) (fieldAddress mode w) (fieldSource w)) := by
  rw [decodeWord, if_neg (h ▸ by decide), if_neg (h ▸ by decide), if_neg (h ▸ by decide), if_pos h]

theorem decodeWord_of_unassigned (h : bitSlice w 7 0 ∉ assignedTags) :
    decodeWord mode w = .error (.unassignedTag (fieldTag w) w) := by
  have hne : ∀ tag : Tag, tag.toNat ∈ assignedTags → fieldTag w ≠ tag := by
    rintro tag htag rfl
    exact h (bitSlice_tag w ▸ htag)
  rw [decodeWord, if_neg (hne _ (by decide)), if_neg (hne _ (by decide)), if_neg (hne _ (by decide)),
    if_neg (hne _ (by decide))]

/-- A step on a word with an unassigned tag skips it (R114). -/
theorem step_of_unassigned (hw : fetch s = .word w) (h : bitSlice w 7 0 ∉ assignedTags) :
    step s = .next (s.skipWord (fieldTag w) w) := by
  rw [step, hw, stepFetched, stepWord, decodeWord_of_unassigned h]

/-- Settles O10: the decoder's dispatch for each tag, and the step on a word of any other. -/
theorem theTagSelectsTheInstruction : Obligations.TheTagSelectsTheInstruction := by
  refine ⟨fun mode w h => ⟨_, _, decodeWord_of_tagLoadConstant (fieldTag_eq_of_bitSlice h)⟩,
    fun mode w h => ⟨_, _, decodeWord_of_tagMemoryRead (fieldTag_eq_of_bitSlice h)⟩,
    fun mode w h => ⟨_, _, _, decodeWord_of_tagMemoryWrite (fieldTag_eq_of_bitSlice h)⟩,
    fun mode w h => ⟨_, _, _, decodeWord_of_tagBitwiseOr (fieldTag_eq_of_bitSlice h)⟩,
    by decide, by decide, by decide, fun s w hw h => ?_⟩
  exact ⟨_, step_of_unassigned hw h, State.skipWord_condOut s _ w, State.skipWord_x s _ w,
    fun _ => readCell_skipWord _ w, State.skipWord_pc s _ w⟩

/-! ## The encoded word as a number -/

theorem toNat_append_eq_add {m n : Nat} (hi : BitVec m) (lo : BitVec n) :
    (hi ++ lo).toNat = hi.toNat * 2 ^ n + lo.toNat := by
  rw [BitVec.toNat_append, ← Nat.shiftLeft_add_eq_or_of_lt lo.isLt, Nat.shiftLeft_eq]

/-- The layout that every instruction shares: the tag, field B, and `hi`, the fields above it (R71, R72). -/
theorem toNat_append_b_tag {n : Nat} (hi : BitVec n) (b : RegField) (tag : Tag) :
    (hi ++ b ++ tag).toNat = tag.toNat + b.toNat * 2 ^ 8 + hi.toNat * 2 ^ 11 := by
  rw [toNat_append_eq_add, toNat_append_eq_add]
  ring

theorem toNat_zero_append {m n : Nat} (c : BitVec n) : (0#m ++ c).toNat = c.toNat := by
  rw [toNat_append_eq_add, BitVec.toNat_zero, Nat.zero_mul, Nat.zero_add]

theorem toNat_encode_loadConstant (b : RegField) (c : BitVec 26) :
    (encode (.loadConstant b c)).toNat = 195 + b.toNat * 2 ^ 8 + c.toNat * 2 ^ 11 := by
  rw [encode, toNat_append_b_tag, toNat_zero_append]
  rfl

theorem toNat_encode_memoryRead (b c : RegField) :
    (encode (.memoryRead b c)).toNat = 83 + b.toNat * 2 ^ 8 + c.toNat * 2 ^ 11 := by
  rw [encode, toNat_append_b_tag, toNat_zero_append]
  rfl

theorem toNat_encode_memoryWrite (b : RegField) (c : BitVec 9) (d : RegField) :
    (encode (.memoryWrite b c d)).toNat = 53 + b.toNat * 2 ^ 8 + c.toNat * 2 ^ 11 + d.toNat * 2 ^ 20 := by
  have htag : Config.tagMemoryWrite.toNat = 53 := rfl
  rw [encode, toNat_append_b_tag, toNat_append_eq_add, toNat_zero_append, htag]
  ring

theorem toNat_encode_bitwiseOr (b : RegField) (c : BitVec 27) (d : RegField) :
    (encode (.bitwiseOr b c d)).toNat = 74 + b.toNat * 2 ^ 8 + c.toNat * 2 ^ 11 + d.toNat * 2 ^ 38 := by
  have htag : Config.tagBitwiseOr.toNat = 74 := rfl
  rw [encode, toNat_append_b_tag, toNat_append_eq_add, toNat_zero_append, htag]
  ring

/-- Settles O3: the sum for each instruction, and the rule's two examples computed. -/
theorem encodedWordIsTheSumOfItsFields : Obligations.EncodedWordIsTheSumOfItsFields :=
  ⟨toNat_encode_loadConstant, toNat_encode_memoryRead, toNat_encode_memoryWrite, toNat_encode_bitwiseOr,
    by decide, by decide, by decide, by decide⟩

/-! ## The fields of an encoded word -/

/-- Field C of every instruction starts at bit 11; its low `k` bits are read there (R72, R78). -/
theorem extractLsb'_fieldC {m n k : Nat} (hi : BitVec m) (c : BitVec n) (b : RegField) (tag : Tag) (hk : k ≤ n) :
    (hi ++ c ++ b ++ tag).extractLsb' 11 k = c.extractLsb' 0 k := by
  rw [BitVec.extractLsb'_append_eq_of_le (by decide), BitVec.extractLsb'_append_eq_of_le (by decide),
    BitVec.extractLsb'_append_eq_of_add_le (by omega)]

/-- Field D, where an instruction has it, stands right above field C (R72, R78). -/
theorem extractLsb'_fieldD {m n : Nat} (hi : BitVec m) (d : RegField) (c : BitVec n) (b : RegField) (tag : Tag) :
    (hi ++ d ++ c ++ b ++ tag).extractLsb' (n + 11) 3 = d := by
  rw [BitVec.extractLsb'_append_eq_of_le (by omega), BitVec.extractLsb'_append_eq_of_le (by omega),
    BitVec.extractLsb'_append_eq_of_le (by omega), BitVec.extractLsb'_append_eq_of_add_le (by omega)]
  have hstart : n + 11 - 8 - 3 - n = 0 := by omega
  rw [hstart, BitVec.extractLsb'_eq_self]

theorem fieldB_append (hi : BitVec 37) (b : RegField) (tag : Tag) : fieldB (hi ++ b ++ tag) = b := by
  rw [fieldB, BitVec.extractLsb'_append_eq_of_le (by decide), BitVec.extractLsb'_append_eq_right]

@[simp] theorem fieldB_encode_loadConstant (b : RegField) (c : BitVec 26) :
    fieldB (encode (.loadConstant b c)) = b := fieldB_append _ b _

@[simp] theorem fieldB_encode_memoryRead (b c : RegField) : fieldB (encode (.memoryRead b c)) = b :=
  fieldB_append _ b _

@[simp] theorem fieldB_encode_memoryWrite (b : RegField) (c : BitVec 9) (d : RegField) :
    fieldB (encode (.memoryWrite b c d)) = b := fieldB_append _ b _

@[simp] theorem fieldB_encode_bitwiseOr (b : RegField) (c : BitVec 27) (d : RegField) :
    fieldB (encode (.bitwiseOr b c d)) = b := fieldB_append _ b _

@[simp] theorem fieldDestination_encode (b c : RegField) : fieldDestination (encode (.memoryRead b c)) = c :=
  (extractLsb'_fieldC _ c b _ (Nat.le_refl 3)).trans BitVec.extractLsb'_eq_self

@[simp] theorem fieldOffset_encode (b : RegField) (c : BitVec 9) (d : RegField) :
    fieldOffset (encode (.memoryWrite b c d)) = c :=
  (extractLsb'_fieldC _ c b _ (Nat.le_refl 9)).trans BitVec.extractLsb'_eq_self

@[simp] theorem fieldBase_encode (b : RegField) (c : BitVec 9) (d : RegField) :
    fieldBase (encode (.memoryWrite b c d)) = d := extractLsb'_fieldD _ d c b _

@[simp] theorem fieldSource_encode (b : RegField) (c : BitVec 27) (d : RegField) :
    fieldSource (encode (.bitwiseOr b c d)) = d := extractLsb'_fieldD _ d c b _

/-- A field cut to its low `k` bits is its value modulo `2^k`. -/
theorem setWidth_extractLsb'_zero {n : Nat} (c : BitVec n) (k : Nat) :
    (c.extractLsb' 0 k).setWidth n = BitVec.ofNat n (c.toNat % 2 ^ k) := by
  rw [← BitVec.ofNat_toNat, BitVec.extractLsb'_toNat, Nat.shiftRight_zero]

theorem immBits_le (mode : DecodeMode) : Config.immBits mode ≤ 26 := by cases mode <;> decide

theorem addrBits_le (mode : DecodeMode) : Config.addrBits mode ≤ 27 := by cases mode <;> decide

@[simp] theorem fieldImmediate_encode (mode : DecodeMode) (b : RegField) (c : BitVec 26) :
    fieldImmediate mode (encode (.loadConstant b c)) = BitVec.ofNat 26 (c.toNat % 2 ^ Config.immBits mode) :=
  (congrArg (BitVec.setWidth 26) (extractLsb'_fieldC _ c b _ (immBits_le mode))).trans (setWidth_extractLsb'_zero c _)

@[simp] theorem fieldAddress_encode (mode : DecodeMode) (b : RegField) (c : BitVec 27) (d : RegField) :
    fieldAddress mode (encode (.bitwiseOr b c d)) = BitVec.ofNat 27 (c.toNat % 2 ^ Config.addrBits mode) :=
  (congrArg (BitVec.setWidth 27) (extractLsb'_fieldC _ c b _ (addrBits_le mode))).trans (setWidth_extractLsb'_zero c _)

/-! ## Decode of encode -/

/-- Each mode reads the fields back cut to its decode-side widths. -/
theorem decodeWord_encode (mode : DecodeMode) (i : Instr) : decodeWord mode (encode i) = .ok (i.truncate mode) := by
  cases i with
  | loadConstant b c => simp [decodeWord_of_tagLoadConstant (Laws.EncodedTag.loadConstant b c), Instr.truncate]
  | memoryRead b c => simp [decodeWord_of_tagMemoryRead (Laws.EncodedTag.memoryRead b c), Instr.truncate]
  | memoryWrite b c d => simp [decodeWord_of_tagMemoryWrite (Laws.EncodedTag.memoryWrite b c d), Instr.truncate]
  | bitwiseOr b c d => simp [decodeWord_of_tagBitwiseOr (Laws.EncodedTag.bitwiseOr b c d), Instr.truncate]

theorem ofNat_mod_self {n : Nat} (c : BitVec n) : BitVec.ofNat n (c.toNat % 2 ^ n) = c := by
  rw [Nat.mod_eq_of_lt c.isLt, BitVec.ofNat_toNat, BitVec.setWidth_eq]

/-- Unified mode reads the encode-side widths (R72, R78), so it cuts nothing. -/
theorem truncate_unified (i : Instr) : i.truncate .unified = i := by
  cases i with
  | loadConstant b c => exact congrArg (Instr.loadConstant b) (ofNat_mod_self c)
  | memoryRead b c => rfl
  | memoryWrite b c d => rfl
  | bitwiseOr b c d => exact congrArg (Instr.bitwiseOr b · d) (ofNat_mod_self c)

theorem leNat_wordBytes (w : CodeWord) : leNat (wordBytes w) = w.toNat := by
  have hw : w.toNat < 2 ^ 48 := w.isLt
  simp only [wordBytes, leNat, BitVec.extractLsb'_toNat, Nat.shiftRight_eq_div_pow]
  omega

theorem wordOfBytes_wordBytes (w : CodeWord) : wordOfBytes (wordBytes w) = w := by
  rw [wordOfBytes, leNat_wordBytes, BitVec.ofNat_toNat, BitVec.setWidth_eq]

/-- The six bytes of a word decode as the word. -/
theorem decodeBytes_wordBytes (mode : DecodeMode) (w : CodeWord) :
    decodeBytes mode (wordBytes w) = decodeWord mode w :=
  congrArg (decodeWord mode) (wordOfBytes_wordBytes w)

/-- Settles O4: decoding gives the instruction cut to the mode's widths, and Unified mode cuts nothing. -/
theorem decodeOfEncodeGivesTheInstructionBack : Obligations.DecodeOfEncodeGivesTheInstructionBack := by
  intro i
  have hword : decodeWord .unified (encode i) = .ok i := by rw [decodeWord_encode, truncate_unified]
  exact ⟨hword, (decodeBytes_wordBytes .unified (encode i)).trans hword⟩

end Sys2Proof.Machine
end

section
/-! What a step depends on and where it ends (40_decode_dispatch.md R114, R115, R116, R122). -/

namespace Sys2Proof.Machine

variable {s t u : State} {w : CodeWord}

/-! ## What an effect keeps, and that it acts alike on states of one machine -/

namespace Effect

@[simp] theorem apply_pc (e : Effect) (s : State) : (e.apply s).pc = s.pc := by cases e <;> rfl

@[simp] theorem apply_params (e : Effect) (s : State) : (e.apply s).params = s.params := by cases e <;> rfl

theorem apply_x_congr (e : Effect) (h : u.x = s.x) : (e.apply u).x = (e.apply s).x := by
  cases e with
  | writeReg r v => exact congrArg (·.set (regSlot r) v) h
  | writeCell a v => exact h
  | raise c => exact h

theorem apply_conditions_congr (e : Effect) (h : u.conditions = s.conditions) :
    (e.apply u).conditions = (e.apply s).conditions := by
  cases e with
  | writeReg r v => exact h
  | writeCell a v => exact h
  | raise c => exact congrArg (· ++ [c]) h

theorem apply_sameMachine (e : Effect) (h : SameMachine s u) : SameMachine (e.apply s) (e.apply u) := by
  obtain ⟨hx, hmem, hpc, hstream, hmode⟩ := h
  exact ⟨apply_x_congr e hx, apply_mem_congr hmem, by simpa using hpc, by simpa using hstream, by simpa using hmode⟩

end Effect

theorem retire_sameMachine (h : SameMachine s u) (i j : Option Instr) : SameMachine (s.retire i) (u.retire j) := by
  obtain ⟨hx, hmem, hpc, hstream, hmode⟩ := h
  simp [SameMachine, hx, hmem, hpc, hstream, hmode]

/-! ## The step on two states of one machine (R122) -/

theorem fetch_of_sameMachine (h : SameMachine s u) : fetch u = fetch s := by
  obtain ⟨-, -, hpc, hstream, -⟩ := h
  exact fetch_congr hstream hpc

theorem wordEffect_of_sameMachine (h : SameMachine s u) (w : CodeWord) : wordEffect w u = wordEffect w s := by
  obtain ⟨hx, hmem, -, -, hmode⟩ := h
  unfold wordEffect
  rw [hmode]
  cases decodeWord s.params.decodeMode w with
  | ok i => exact effectOf_congr (fun r _ => congrArg (·[regSlot r]) hx) hmem
  | error e => rfl

/-- States of one machine step to states of one machine with the same report; equal histories stay equal. -/
theorem step_sameMachine (h : SameMachine s u) (hs : step s = .next t) :
    ∃ v, step u = .next v ∧ SameMachine t v ∧ v.condOut = t.condOut ∧
      (u.conditions = s.conditions → v.conditions = t.conditions) := by
  obtain ⟨w, hw, rfl⟩ := step_next_iff.1 hs
  refine ⟨_, step_next_iff.2 ⟨w, (fetch_of_sameMachine h).trans hw, rfl⟩, ?_⟩
  rw [wordEffect_of_sameMachine h]
  refine ⟨retire_sameMachine (Effect.apply_sameMachine _ h) _ _, ?_, fun hconds => ?_⟩
  · rw [State.retire_condOut, State.retire_condOut, Effect.apply_condOut_congr s u]
  · rw [State.retire_conditions, State.retire_conditions, Effect.apply_conditions_congr _ hconds]

/-- A step that answers no next state found no word, and where it stops is fetch's answer alone. -/
theorem step_eq_of_no_next (hfetch : fetch u = fetch s) (h : ∀ t, step s ≠ .next t) : step u = step s := by
  unfold step
  rw [hfetch]
  cases hf : fetch s with
  | word w => exact absurd (step_next_iff.2 ⟨w, hf, rfl⟩) (h _)
  | endOfStream => rfl
  | fragment => rfl
  | pastEnd => rfl

/-! ## Runs -/

/-- A relation that every step carries over is carried over by every run. -/
theorem runSteps_simulates {R : State → State → Prop}
    (hstep : ∀ s u t, R s u → step s = .next t → ∃ v, step u = .next v ∧ R t v) {k : Nat} (h : R s u)
    (hrun : runSteps k s = some t) : ∃ v, runSteps k u = some v ∧ R t v := by
  induction k generalizing s u with
  | zero => cases hrun; exact ⟨u, rfl, h⟩
  | succ k ih =>
    obtain ⟨s', hs, hrun'⟩ := runSteps_succ_iff.1 hrun
    obtain ⟨u', hu, h'⟩ := hstep s u s' h hs
    obtain ⟨v, hv, hR⟩ := ih h' hrun'
    exact ⟨v, runSteps_succ_iff.2 ⟨u', hu, hv⟩, hR⟩

/-- The two states are of one machine and have given the same on `cond_out` (10_state.md R36). -/
def SameMachineAndReports (s t : State) : Prop :=
  SameMachine s t ∧ t.condOut = s.condOut ∧ t.conditions = s.conditions

theorem boot_sameMachineAndReports {h g : HostSetup} (hstream : g.stream = h.stream)
    (hmode : g.params.decodeMode = h.params.decodeMode) : SameMachineAndReports (boot h) (boot g) :=
  ⟨⟨rfl, rfl, rfl, hstream, hmode⟩, rfl, rfl⟩

theorem step_sameMachineAndReports (s u t : State) (h : SameMachineAndReports s u) (hs : step s = .next t) :
    ∃ v, step u = .next v ∧ SameMachineAndReports t v := by
  obtain ⟨hm, -, hconds⟩ := h
  obtain ⟨v, hv, hm', hout, hkeep⟩ := step_sameMachine hm hs
  exact ⟨v, hv, hm', hout, hkeep hconds⟩

/-- Settles O39: the step is a simulation between states of one machine, it stops alike on them, and a run carries the
simulation along from two boots. -/
theorem stepDependsOnlyOnStateStreamAndMode : Obligations.StepDependsOnlyOnStateStreamAndMode := by
  refine ⟨fun s u h => ⟨fun t hs => ?_, fun r hr => ?_, fun r hr => ?_⟩, fun h g hstream hmode k t hrun => ?_⟩
  · obtain ⟨v, hv, hm, hout, -⟩ := step_sameMachine h hs
    exact ⟨v, hv, hm, hout⟩
  · exact (step_eq_of_no_next (fetch_of_sameMachine h) (by simp [hr])).trans hr
  · exact (step_eq_of_no_next (fetch_of_sameMachine h) (by simp [hr])).trans hr
  · exact runSteps_simulates step_sameMachineAndReports (boot_sameMachineAndReports hstream hmode) hrun

/-! ## Where a step ends (R114, R115, R116) -/

theorem step_advances_pc (h : step s = .next t) : t.pc = s.pc + 1 := by
  obtain ⟨w, -, rfl⟩ := step_next_iff.1 h
  rw [State.retire_pc, Effect.apply_pc]

theorem byteOffset_of_pc_succ (h : t.pc = s.pc + 1) : t.byteOffset = s.byteOffset + 6 := by
  rw [State.byteOffset, h]; rfl

/-- Settles O15: a fetched word is stepped to a next state, and every next state is one word on. -/
theorem everyFetchedWordAdvancesThePosition : Obligations.EveryFetchedWordAdvancesThePosition := by
  intro s w hw
  have hs := step_next_iff.2 ⟨w, hw, rfl⟩
  have hpc := step_advances_pc hs
  exact ⟨_, hs, hpc, byteOffset_of_pc_succ hpc, step_keeps_stream hs⟩

/-- Settles O28: such a step skips the word, and skipping only reports, records and advances. -/
theorem unassignedTagIsReportedAndSkipped : Obligations.UnassignedTagIsReportedAndSkipped := by
  intro s w hw h
  exact ⟨_, step_of_unassigned hw h, State.skipWord_condOut s _ w, State.skipWord_conditions s _ w,
    State.skipWord_x s _ w, fun _ => readCell_skipWord _ w, State.skipWord_pc s _ w⟩

theorem step_at_end (h : s.byteOffset = s.stream.length) : step s = .fault .endOfStream := by
  rw [step, fetch_end_iff.2 h, stepFetched]

/-- Settles O16: the step stops at the end of the stream, where the boot of an empty stream already is. -/
theorem noStepAtTheEndOfTheStream : Obligations.NoStepAtTheEndOfTheStream := by
  refine ⟨fun s hend t hs => ?_, fun h s hstart hempty => ?_⟩
  · rw [step_at_end hend] at hs
    cases hs
  · obtain ⟨-, rfl⟩ := startRun_some_iff.1 hstart
    have hend : (boot h).byteOffset = (boot h).stream.length := by rw [boot_stream, hempty]; rfl
    rw [runToEnd_of_start hstart, runFrom_at_end (step_at_end hend)]

end Sys2Proof.Machine
end

section
/-! LOAD_CONSTANT (41_load_constant.md R130), with two facts that the other instructions share: a field's value is a slice
of its word, and a register write has the frame of every instruction that completes. -/

namespace Sys2Proof.Machine

/-! ## The value of a field is a slice of its word (00_scope.md R6) -/

theorem toNat_extractLsb'_eq_bitSlice (w : CodeWord) (hi lo : Nat) :
    (w.extractLsb' lo (hi + 1 - lo)).toNat = bitSlice w hi lo := by
  rw [BitVec.extractLsb'_toNat, Nat.shiftRight_eq_div_pow, bitSlice]

theorem toNat_fieldB (w : CodeWord) : (fieldB w).toNat = bitSlice w 10 8 := toNat_extractLsb'_eq_bitSlice w 10 8

/-- Zero extension to the field's type keeps the value. -/
theorem toNat_fieldImmediate_eq_extract (mode : DecodeMode) (w : CodeWord) :
    (fieldImmediate mode w).toNat = (w.extractLsb' 11 (Config.immBits mode)).toNat :=
  BitVec.toNat_setWidth_of_le (immBits_le mode)

theorem toNat_fieldImmediate_reference (w : CodeWord) : (fieldImmediate .reference w).toNat = bitSlice w 34 11 :=
  (toNat_fieldImmediate_eq_extract .reference w).trans (toNat_extractLsb'_eq_bitSlice w 34 11)

theorem toNat_fieldImmediate_unified (w : CodeWord) : (fieldImmediate .unified w).toNat = bitSlice w 36 11 :=
  (toNat_fieldImmediate_eq_extract .unified w).trans (toNat_extractLsb'_eq_bitSlice w 36 11)

/-! ## A register write and its frame -/

namespace Effect

@[simp] theorem readReg_apply_writeReg (r : RegField) (v : Word) (s : State) :
    ((writeReg r v).apply s).readReg r = v := by
  rw [apply, readReg_reportOk, readReg_writeReg, if_pos rfl]

theorem apply_writeReg_frame (r : RegField) (v : Word) (s : State) :
    OnlySlotChanges r s ((writeReg r v).apply s) ∧ SameCells s ((writeReg r v).apply s) ∧
      SameSurroundings s ((writeReg r v).apply s) ∧ ReportsOk s ((writeReg r v).apply s) := by
  refine ⟨fun k hk => getSlot_apply ?_, fun _ => rfl, ⟨rfl, rfl, rfl, rfl⟩, rfl, rfl⟩
  rintro q ⟨⟩
  exact hk

end Effect

/-! ## LOAD_CONSTANT -/

theorem toNat_immediate (c : BitVec 26) : (immediate c).toNat = c.toNat := BitVec.toNat_setWidth_of_le (by decide)

/-- Settles O20: the decoder's two fields as slices of the word, and `exec` as one register write with its frame. -/
theorem loadConstantWritesItsImmediate : Obligations.LoadConstantWritesItsImmediate := by
  refine ⟨fun mode w h => ?_, fun b c s => ?_⟩
  · refine ⟨_, _, decodeWord_of_tagLoadConstant (fieldTag_eq_of_bitSlice h), toNat_fieldB w, ?_⟩
    cases mode with
    | reference => exact toNat_fieldImmediate_reference w
    | unified => exact toNat_fieldImmediate_unified w
  · refine ⟨_, exec_eq_apply _ s, ?_, Effect.apply_writeReg_frame b (immediate c) s⟩
    rw [effectOf, Effect.readReg_apply_writeReg, toNat_immediate]

end Sys2Proof.Machine
end

section
/-! The access controller and MEMORY_READ (42_memory_access.md R140 to R142), with two facts that the other instructions of
memory access share: a raise is a condition with no other effect, and an instruction that forms an address is guarded by
it. -/

namespace Sys2Proof.Machine

variable {s : State} {i : Instr} {a : Nat}

/-! ## The access controller -/

namespace Effect

theorem apply_raise_onlyRaises (c : Condition) (s : State) : OnlyRaises c s ((raise c).apply s) :=
  ⟨rfl, fun _ => rfl, ⟨rfl, rfl, rfl, rfl⟩, rfl, rfl⟩

/-- What reports `OK` without the guard reports `OK` under it exactly when the address is a valid memory index. -/
theorem apply_guarded_condOut_ok_iff {info : Condition} {e : Effect} (he : (e.apply s).condOut = some .ok) :
    ((guarded a info e).apply s).condOut = some .ok ↔ a < Config.memCells := by
  rcases Nat.lt_or_ge a Config.memCells with h | h
  · rw [guarded_valid h]
    exact iff_of_true he h
  · rw [guarded_invalid h]
    exact iff_of_false (by simp [apply]) (Nat.not_lt.2 h)

theorem apply_guarded_onlyRaises (info : Condition) (e : Effect) (s : State) (h : Config.memCells ≤ a) :
    OnlyRaises info s ((guarded a info e).apply s) := by
  rw [guarded_invalid h]
  exact apply_raise_onlyRaises info s

end Effect

/-- An instruction that forms an address has its effect guarded by that address, with its own tag and the address in the
condition (R140, R141, R172). -/
theorem effectOf_of_cellAddress (h : cellAddress s i = some a) : ∃ b c d e,
    effectOf i s = .guarded a (.outOfBounds i.tag b c d a) e ∧ (e.apply s).condOut = some .ok := by
  cases i with
  | loadConstant b c => cases h
  | memoryRead b c => cases h; exact ⟨_, _, _, _, rfl, rfl⟩
  | memoryWrite b c d => cases h; exact ⟨_, _, _, _, rfl, rfl⟩
  | bitwiseOr b c d => cases h; exact ⟨_, _, _, _, rfl, rfl⟩

/-- Settles O27: the effect of an instruction that forms an address is the guarded one, so the guard decides. -/
theorem accessGoesAheadExactlyOnValidCells : Obligations.AccessGoesAheadExactlyOnValidCells := by
  intro i s a ha
  obtain ⟨b, c, d, e, he, hok⟩ := effectOf_of_cellAddress ha
  refine ⟨_, exec_eq_apply i s, ?_, fun hinvalid => ⟨b, c, d, ?_⟩⟩
  · rw [he]
    exact (Effect.apply_guarded_condOut_ok_iff hok).symm
  · rw [he]
    exact Effect.apply_guarded_onlyRaises _ e s hinvalid

/-! ## MEMORY_READ -/

theorem toNat_fieldDestination (w : CodeWord) : (fieldDestination w).toNat = bitSlice w 13 11 :=
  toNat_extractLsb'_eq_bitSlice w 13 11

theorem effectOf_memoryRead_valid {b : RegField} (c : RegField) (h : addrRegister b s < Config.memCells) :
    effectOf (.memoryRead b c) s = .writeReg c (s.readCell (addrRegister b s)) :=
  Effect.guarded_valid h

/-- Settles O21: the decoder's two fields as slices of the word, and `exec` as one register write of the cell read before
it, or as the raise alone. -/
theorem memoryReadCopiesTheAddressedCell : Obligations.MemoryReadCopiesTheAddressedCell := by
  refine ⟨fun mode w h => ?_, fun b c s h => ?_, fun b c s h => ?_⟩
  · exact ⟨_, _, decodeWord_of_tagMemoryRead (fieldTag_eq_of_bitSlice h), toNat_fieldB w, toNat_fieldDestination w⟩
  · refine ⟨_, exec_eq_apply _ s, ?_⟩
    rw [effectOf_memoryRead_valid c h]
    exact ⟨Effect.readReg_apply_writeReg c _ s, Effect.apply_writeReg_frame c _ s⟩
  · exact ⟨_, exec_eq_apply _ s, Effect.apply_guarded_onlyRaises _ _ s h⟩

end Sys2Proof.Machine
end

section
/-! Conditions are precise (60_exceptions.md R174). -/

namespace Sys2Proof.Machine

variable {s : State} {c : Condition}

/-- Only the raise reports a condition: every other effect reports `OK` (R110). -/
theorem Effect.eq_raise_of_condOut {e : Effect} (h : (e.apply s).condOut = some (.raised c)) : e = .raise c := by
  cases e with
  | writeReg r v => cases h
  | writeCell a v => cases h
  | raise c' => cases h; rfl

/-- Settles O29: the step's effect is the raise of that condition alone, and the step's end only advances. -/
theorem aConditionChangesOnlyThePosition : Obligations.AConditionChangesOnlyThePosition := by
  intro s t c hs hc
  obtain ⟨w, -, rfl⟩ := step_next_iff.1 hs
  rw [State.retire_condOut] at hc
  rw [Effect.eq_raise_of_condOut hc]
  exact ⟨State.retire_x _ _, State.retire_mem _ _, State.retire_stream _ _, State.retire_params _ _,
    State.retire_pc _ _, State.retire_conditions _ _⟩

end Sys2Proof.Machine
end

section
/-! A run executes every word of its stream once, in order (70_reset_and_hazards.md R204). -/

namespace Sys2Proof.Machine

variable {h : HostSetup} {s t : State} {k : Nat}

/-! ## What follows the first `k` steps of a run -/

/-- After `k` steps from `s` to `t`, the steps that follow are those of `t`. -/
theorem runSteps_add (hrun : runSteps k s = some t) (m : Nat) : runSteps (k + m) s = runSteps m t := by
  induction k generalizing s with
  | zero => cases hrun; rw [Nat.zero_add]
  | succ k ih =>
    obtain ⟨u, hu, hrest⟩ := runSteps_succ_iff.1 hrun
    rw [Nat.succ_add, runSteps, hu]
    exact ih hrest

/-- After `k` steps from `s` to `t`, the run ends as it does from `t`. -/
theorem runFrom_add (hrun : runSteps k s = some t) (m : Nat) : runFrom (k + m) s = runFrom m t := by
  induction k generalizing s with
  | zero => cases hrun; rw [Nat.zero_add]
  | succ k ih =>
    obtain ⟨u, hu, hrest⟩ := runSteps_succ_iff.1 hrun
    rw [Nat.succ_add, runFrom_next hu]
    exact ih hrest

theorem runSteps_succ_eq_none_at_end (m : Nat) (hend : s.byteOffset = s.stream.length) :
    runSteps (m + 1) s = none := by
  rw [runSteps, step_at_end hend]

/-! ## Each whole word is one step (R110, R115) -/

/-- While `k` whole words remain, `k` steps are enabled; they move `k` words on in the same stream. -/
theorem runSteps_of_words_remain (hlen : s.byteOffset + 6 * k ≤ s.stream.length) :
    ∃ t, runSteps k s = some t ∧ t.pc = s.pc + k ∧ t.stream = s.stream := by
  induction k generalizing s with
  | zero => exact ⟨s, rfl, rfl, rfl⟩
  | succ k ih =>
    have hword : fetch s = .word (wordAtPosition s) := fetch_eq_word (by omega)
    obtain ⟨u, hu, hpc, hoff, hstream⟩ := everyFetchedWordAdvancesThePosition s _ hword
    obtain ⟨t, hrun, htpc, htstream⟩ := ih (s := u) (by rw [hoff, hstream]; omega)
    exact ⟨t, runSteps_succ_iff.2 ⟨u, hu, hrun⟩, by omega, htstream.trans hstream⟩

theorem runSteps_boot_of_words (hlen : 6 * k ≤ h.stream.length) :
    ∃ s, runSteps k (boot h) = some s ∧ s.pc = k ∧ s.stream = h.stream := by
  have hzero : (boot h).byteOffset = 0 := rfl
  have hremain : (boot h).byteOffset + 6 * k ≤ (boot h).stream.length := by rwa [hzero, Nat.zero_add, boot_stream]
  obtain ⟨s, hrun, hpc, hstream⟩ := runSteps_of_words_remain hremain
  exact ⟨s, hrun, by rw [hpc, boot_pc, Nat.zero_add], hstream⟩

/-- The word fetched after `k` steps is word `k` of the stream (R111). -/
theorem fetch_eq_word_of_pc {stream : List Byte} (hpc : s.pc = k) (hstream : s.stream = stream)
    (hlen : 6 * k + 6 ≤ stream.length) : fetch s = .word (wordOfBytes ((stream.drop (6 * k)).take 6)) := by
  subst hpc hstream
  exact fetch_eq_word hlen

/-- Settles O41: `k` whole words are `k` steps from the boot, and `n` of them end exactly at the end of the stream. -/
theorem aRunExecutesEveryWordOnceInOrder : Obligations.ARunExecutesEveryWordOnceInOrder := by
  intro h start n hstart hlen
  obtain ⟨-, rfl⟩ := startRun_some_iff.1 hstart
  obtain ⟨s, hrun, hpc, hstream⟩ := runSteps_boot_of_words (h := h) (k := n) hlen.ge
  have hend : s.byteOffset = s.stream.length := by rw [State.byteOffset, hpc, hstream, hlen, Config.wordBytes]
  have hcount : h.stream.length / Config.wordBytes = n + 0 := by
    rw [hlen, Config.wordBytes, Nat.mul_div_cancel_left n (by decide), Nat.add_zero]
  have hstop : ∀ t, step s ≠ .next t := noStepAtTheEndOfTheStream.1 s hend
  refine ⟨rfl, fun k hk => ?_, ?_, s, hrun, hstop, ?_⟩
  · obtain ⟨u, hu, hupc, hustream⟩ := runSteps_boot_of_words (h := h) (k := k) (by omega)
    exact ⟨u, hu, hupc, fun hlt => fetch_eq_word_of_pc hupc hustream (by omega)⟩
  · rw [runSteps_add hrun, runSteps_succ_eq_none_at_end 0 hend]
  · rw [runToEnd_of_start hstart, hcount, runFrom_add hrun, runFrom_at_end (step_at_end hend)]

end Sys2Proof.Machine
end

section
/-! Round trips in each mode: what a mode reads back of a word, and which bits it looks at (30_encoding.md R77, R78, R81,
R97; 20_memory.md R51). -/

namespace Sys2Proof.Machine

variable {mode : DecodeMode} {w v : CodeWord} {i j : Instr}

/-! ## The two long fields cut to the mode (R97) -/

theorem ofNat_mod_two_pow_eq_iff {n : Nat} (c : BitVec n) (k : Nat) :
    BitVec.ofNat n (c.toNat % 2 ^ k) = c ↔ c.toNat < 2 ^ k := by
  constructor
  · intro h
    calc c.toNat = c.toNat % 2 ^ k % 2 ^ n := by rw [← BitVec.toNat_ofNat, h]
      _ ≤ c.toNat % 2 ^ k := Nat.mod_le _ _
      _ < 2 ^ k := Nat.mod_lt _ (Nat.two_pow_pos k)
  · intro h
    rw [Nat.mod_eq_of_lt h, BitVec.ofNat_toNat, BitVec.setWidth_eq]

/-- A mode cuts nothing off exactly the instructions that fit its decode-side widths. -/
theorem truncate_eq_self_iff (mode : DecodeMode) (i : Instr) : i.truncate mode = i ↔ i.wellFormed mode = true := by
  cases i with
  | loadConstant b c => simpa [Instr.truncate, Instr.wellFormed] using ofNat_mod_two_pow_eq_iff c _
  | memoryRead b c => exact iff_of_true rfl rfl
  | memoryWrite b c d => exact iff_of_true rfl rfl
  | bitwiseOr b c d => simpa [Instr.truncate, Instr.wellFormed] using ofNat_mod_two_pow_eq_iff c _

theorem tableWord_of_lt {n : Nat} (h : n < 2 ^ 48) : tableWord 48 n = BitVec.ofNat 48 n := by
  rw [tableWord, Nat.mod_eq_of_lt h]

theorem tableWord_toNat (w : CodeWord) : tableWord 48 w.toNat = w := by
  rw [tableWord_of_lt w.isLt, BitVec.ofNat_toNat, BitVec.setWidth_eq]

/-- The table's numbering of a word's bits is the word's own. -/
theorem decodeTableWord_of_decodeWord (h : decodeWord Config.decodeMode w = .ok i) :
    decodeTableWord 48 w.toNat = some i := by
  rw [decodeTableWord, tableWord_toNat, decodeBytes_wordBytes, h]

/-- Settles O5: decoding cuts to the mode's widths, and what is well formed in the mode is not cut. -/
theorem decodeOfEncodeTruncatesToTheMode : Obligations.DecodeOfEncodeTruncatesToTheMode := by
  refine ⟨decodeWord_encode, truncate_eq_self_iff, fun i hi => decodeTableWord_of_decodeWord ?_⟩
  rw [decodeWord_encode, (truncate_eq_self_iff _ i).2 hi]

/-! ## What decodes has an assigned tag -/

theorem fieldTag_of_mem_assignedTags (h : bitSlice w 7 0 ∈ assignedTags) :
    fieldTag w = Config.tagLoadConstant ∨ fieldTag w = Config.tagMemoryRead ∨
      fieldTag w = Config.tagMemoryWrite ∨ fieldTag w = Config.tagBitwiseOr := by
  simp only [assignedTags, List.mem_cons, List.not_mem_nil, or_false] at h
  exact h.imp fieldTag_eq_of_bitSlice (Or.imp fieldTag_eq_of_bitSlice
    (Or.imp fieldTag_eq_of_bitSlice fieldTag_eq_of_bitSlice))

theorem mem_assignedTags_of_decodeWord (h : decodeWord mode w = .ok i) : bitSlice w 7 0 ∈ assignedTags := by
  by_contra hn
  rw [decodeWord_of_unassigned hn] at h
  cases h

/-- A word that decodes is one of the four instructions, by its tag, with the fields of that instruction. -/
theorem decodeWord_ok_cases (h : decodeWord mode w = .ok i) :
    (fieldTag w = Config.tagLoadConstant ∧ i = .loadConstant (fieldB w) (fieldImmediate mode w)) ∨
    (fieldTag w = Config.tagMemoryRead ∧ i = .memoryRead (fieldB w) (fieldDestination w)) ∨
    (fieldTag w = Config.tagMemoryWrite ∧ i = .memoryWrite (fieldB w) (fieldOffset w) (fieldBase w)) ∨
    (fieldTag w = Config.tagBitwiseOr ∧ i = .bitwiseOr (fieldB w) (fieldAddress mode w) (fieldSource w)) := by
  rcases fieldTag_of_mem_assignedTags (mem_assignedTags_of_decodeWord h) with ht | ht | ht | ht
  · exact .inl ⟨ht, (Except.ok.inj ((decodeWord_of_tagLoadConstant ht).symm.trans h)).symm⟩
  · exact .inr (.inl ⟨ht, (Except.ok.inj ((decodeWord_of_tagMemoryRead ht).symm.trans h)).symm⟩)
  · exact .inr (.inr (.inl ⟨ht, (Except.ok.inj ((decodeWord_of_tagMemoryWrite ht).symm.trans h)).symm⟩))
  · exact .inr (.inr (.inr ⟨ht, (Except.ok.inj ((decodeWord_of_tagBitwiseOr ht).symm.trans h)).symm⟩))

theorem decodeWord_ok_of_mem_assignedTags (mode : DecodeMode) (h : bitSlice w 7 0 ∈ assignedTags) :
    ∃ i, decodeWord mode w = .ok i := by
  rcases fieldTag_of_mem_assignedTags h with ht | ht | ht | ht
  · exact ⟨_, decodeWord_of_tagLoadConstant ht⟩
  · exact ⟨_, decodeWord_of_tagMemoryRead ht⟩
  · exact ⟨_, decodeWord_of_tagMemoryWrite ht⟩
  · exact ⟨_, decodeWord_of_tagBitwiseOr ht⟩

theorem toNat_fieldAddress_eq_extract (mode : DecodeMode) (w : CodeWord) :
    (fieldAddress mode w).toNat = (w.extractLsb' 11 (Config.addrBits mode)).toNat :=
  BitVec.toNat_setWidth_of_le (addrBits_le mode)

theorem toNat_fieldImmediate_lt (mode : DecodeMode) (w : CodeWord) :
    (fieldImmediate mode w).toNat < 2 ^ Config.immBits mode := by
  rw [toNat_fieldImmediate_eq_extract]
  exact BitVec.isLt _

theorem toNat_fieldAddress_lt (mode : DecodeMode) (w : CodeWord) :
    (fieldAddress mode w).toNat < 2 ^ Config.addrBits mode := by
  rw [toNat_fieldAddress_eq_extract]
  exact BitVec.isLt _

/-- Settles O9: the two fields that the mode cuts are as wide as it reads them; every other field fits any mode. -/
theorem decodedInstructionFitsItsMode : Obligations.DecodedInstructionFitsItsMode := by
  intro mode w i h
  rcases decodeWord_ok_cases h with ⟨-, rfl⟩ | ⟨-, rfl⟩ | ⟨-, rfl⟩ | ⟨-, rfl⟩
  · exact decide_eq_true (toNat_fieldImmediate_lt mode w)
  · rfl
  · rfl
  · exact decide_eq_true (toNat_fieldAddress_lt mode w)

/-! ## The bits above the last field (R77) -/

theorem getLsbD_eq_false_of_toNat_lt {k n : Nat} (h : w.toNat < 2 ^ n) (hk : n ≤ k) : w.getLsbD k = false :=
  Nat.testBit_lt_two_pow (Nat.lt_of_lt_of_le h (Nat.pow_le_pow_right (by decide) hk))

theorem toNat_encode_loadConstant_lt (b : RegField) (c : BitVec 26) : (encode (.loadConstant b c)).toNat < 2 ^ 37 := by
  have hb := b.isLt
  have hc := c.isLt
  rw [toNat_encode_loadConstant]
  omega

theorem toNat_encode_memoryRead_lt (b c : RegField) : (encode (.memoryRead b c)).toNat < 2 ^ 14 := by
  have hb := b.isLt
  have hc := c.isLt
  rw [toNat_encode_memoryRead]
  omega

theorem toNat_encode_memoryWrite_lt (b : RegField) (c : BitVec 9) (d : RegField) :
    (encode (.memoryWrite b c d)).toNat < 2 ^ 23 := by
  have hb := b.isLt
  have hc := c.isLt
  have hd := d.isLt
  rw [toNat_encode_memoryWrite]
  omega

theorem toNat_encode_bitwiseOr_lt (b : RegField) (c : BitVec 27) (d : RegField) :
    (encode (.bitwiseOr b c d)).toNat < 2 ^ 41 := by
  have hb := b.isLt
  have hc := c.isLt
  have hd := d.isLt
  rw [toNat_encode_bitwiseOr]
  omega

/-- Settles O6: each word as a number lies below the power of two above its last field; and the tag alone decides whether a
word decodes. -/
theorem encodedWordIsZeroAboveItsFields : Obligations.EncodedWordIsZeroAboveItsFields :=
  ⟨fun b c _ hk => getLsbD_eq_false_of_toNat_lt (toNat_encode_loadConstant_lt b c) hk,
    fun b c _ hk => getLsbD_eq_false_of_toNat_lt (toNat_encode_memoryRead_lt b c) hk,
    fun b c d _ hk => getLsbD_eq_false_of_toNat_lt (toNat_encode_memoryWrite_lt b c d) hk,
    fun b c d _ hk => getLsbD_eq_false_of_toNat_lt (toNat_encode_bitwiseOr_lt b c d) hk,
    fun mode _ h => decodeWord_ok_of_mem_assignedTags mode h⟩

/-! ## Encode of decode, bit by bit (R78, R81) -/

/-- The two lowest fields of a word are the word itself below bit 11. -/
theorem getLsbD_append_fieldB_fieldTag {n : Nat} (hi : BitVec n) (w : CodeWord) (k : Nat) :
    (hi ++ fieldB w ++ fieldTag w).getLsbD k = if k < 11 then w.getLsbD k else hi.getLsbD (k - 11) := by
  simp only [BitVec.getLsbD_append, fieldB, fieldTag, BitVec.getLsbD_extractLsb']
  rcases Nat.lt_or_ge k 8 with h8 | h8
  · rw [if_pos h8, if_pos (by omega), decide_eq_true h8, Bool.true_and, Nat.zero_add]
  rcases Nat.lt_or_ge k 11 with h11 | h11
  · rw [if_neg (by omega), if_pos (by omega), if_pos h11, decide_eq_true (by omega), Bool.true_and,
      Nat.add_sub_of_le h8]
  · rw [if_neg (by omega), if_neg (by omega), if_neg (by omega), Nat.sub_sub]

/-- A field of `k` bits starting at bit `lo`, extended with zeros to its type, shows the word's bits `lo` to `lo + k - 1`. -/
theorem getLsbD_setWidth_extractLsb' {n k : Nat} (hk : k ≤ n) (w : CodeWord) (lo j : Nat) :
    ((w.extractLsb' lo k).setWidth n).getLsbD j = (decide (j < k) && w.getLsbD (lo + j)) := by
  rw [BitVec.getLsbD_setWidth, BitVec.getLsbD_extractLsb']
  by_cases hj : j < k
  · rw [decide_eq_true (Nat.lt_of_lt_of_le hj hk), Bool.true_and]
  · rw [decide_eq_false hj, Bool.false_and, Bool.and_false]

theorem getLsbD_zero_append {m n : Nat} (c : BitVec n) (j : Nat) : (0#m ++ c).getLsbD j = c.getLsbD j := by
  rw [BitVec.getLsbD_append, BitVec.getLsbD_zero]
  split
  · rfl
  · exact (BitVec.getLsbD_of_ge c j (by omega)).symm

/-- The tag and field B are decoded whatever the opcode (R71, R78). -/
theorem careBit_of_lt {k : Nat} (mode : DecodeMode) (tag : Tag) (h : k < 11) : careBit mode tag k = true := by
  unfold careBit
  repeat' split
  · rfl
  all_goals simp only [decide_eq_true_eq, Bool.or_eq_true, Bool.and_eq_true]; omega

theorem careBit_loadConstant (mode : DecodeMode) (j : Nat) :
    careBit mode Config.tagLoadConstant (11 + j) = decide (j < Config.immBits mode) := by
  rw [careBit, if_neg (by omega), if_pos rfl, decide_eq_decide]
  omega

theorem careBit_memoryRead (mode : DecodeMode) (j : Nat) :
    careBit mode Config.tagMemoryRead (11 + j) = decide (j < 3) := by
  rw [careBit, if_neg (by omega), if_neg (by decide), if_pos rfl, decide_eq_decide]
  omega

theorem careBit_memoryWrite (mode : DecodeMode) (j : Nat) :
    careBit mode Config.tagMemoryWrite (11 + j) = decide (j < 12) := by
  rw [careBit, if_neg (by omega), if_neg (by decide), if_neg (by decide), if_pos rfl, decide_eq_decide]
  omega

theorem careBit_bitwiseOr (mode : DecodeMode) (j : Nat) :
    careBit mode Config.tagBitwiseOr (11 + j) =
      (decide (j < Config.addrBits mode) || decide (27 ≤ j) && decide (j - 27 < 3)) := by
  rw [careBit, if_neg (by omega), if_neg (by decide), if_neg (by decide), if_neg (by decide), ← Bool.decide_and,
    ← Bool.decide_and, ← Bool.decide_or, ← Bool.decide_or, decide_eq_decide]
  omega

/-- Field C of two fields, and field D right above it, where `c` and `d` are read from `w`. -/
theorem getLsbD_append_fieldD_fieldC {n k j : Nat} {c : BitVec n} {d : RegField}
    (hk : k ≤ n) (hc : ∀ j, c.getLsbD j = (decide (j < k) && w.getLsbD (11 + j)))
    (hd : d = w.extractLsb' (11 + n) 3) :
    (d ++ c).getLsbD j =
      ((decide (j < k) || decide (n ≤ j) && decide (j - n < 3)) && w.getLsbD (11 + j)) := by
  rw [BitVec.getLsbD_append]
  rcases Nat.lt_or_ge j n with hj | hj
  · rw [if_pos hj, hc, decide_eq_false (p := n ≤ j) (by omega), Bool.false_and, Bool.or_false]
  · rw [if_neg (by omega), hd, BitVec.getLsbD_extractLsb', decide_eq_true hj, Bool.true_and,
      decide_eq_false (p := j < k) (by omega), Bool.false_or, Nat.add_assoc, Nat.add_sub_of_le hj]

/-- Above the tag and field B it is left to see that the fields `hi` hold the decoded bits of the word. -/
theorem getLsbD_append_of_careBit {n : Nat} {hi : BitVec n}
    (h : ∀ j, hi.getLsbD j = (careBit mode (fieldTag w) (11 + j) && w.getLsbD (11 + j))) (k : Nat) :
    (hi ++ fieldB w ++ fieldTag w).getLsbD k = (careBit mode (fieldTag w) k && w.getLsbD k) := by
  rw [getLsbD_append_fieldB_fieldTag]
  split
  · rw [careBit_of_lt mode _ ‹_›, Bool.true_and]
  · rw [h, Nat.add_sub_of_le (by omega)]

theorem getLsbD_encode_of_tagLoadConstant (mode : DecodeMode) (h : fieldTag w = Config.tagLoadConstant) (k : Nat) :
    (encode (.loadConstant (fieldB w) (fieldImmediate mode w))).getLsbD k =
      (careBit mode (fieldTag w) k && w.getLsbD k) := by
  rw [encode, ← h]
  refine getLsbD_append_of_careBit (fun j => ?_) k
  rw [getLsbD_zero_append, h, careBit_loadConstant]
  exact getLsbD_setWidth_extractLsb' (immBits_le mode) w 11 j

theorem getLsbD_encode_of_tagMemoryRead (mode : DecodeMode) (h : fieldTag w = Config.tagMemoryRead) (k : Nat) :
    (encode (.memoryRead (fieldB w) (fieldDestination w))).getLsbD k =
      (careBit mode (fieldTag w) k && w.getLsbD k) := by
  rw [encode, ← h]
  refine getLsbD_append_of_careBit (fun j => ?_) k
  rw [getLsbD_zero_append, h, careBit_memoryRead]
  exact BitVec.getLsbD_extractLsb' 11 3 w j

theorem getLsbD_encode_of_tagMemoryWrite (mode : DecodeMode) (h : fieldTag w = Config.tagMemoryWrite) (k : Nat) :
    (encode (.memoryWrite (fieldB w) (fieldOffset w) (fieldBase w))).getLsbD k =
      (careBit mode (fieldTag w) k && w.getLsbD k) := by
  rw [encode, ← h]
  refine getLsbD_append_of_careBit (fun j => ?_) k
  have hfields := getLsbD_append_fieldD_fieldC (j := j) (Nat.le_refl 9) (BitVec.getLsbD_extractLsb' 11 9 w)
    (show fieldBase w = w.extractLsb' (11 + 9) 3 from rfl)
  have hcare : (decide (j < 9) || decide (9 ≤ j) && decide (j - 9 < 3)) = decide (j < 12) := by
    rw [← Bool.decide_and, ← Bool.decide_or, decide_eq_decide]
    omega
  rw [BitVec.append_assoc, BitVec.getLsbD_cast, getLsbD_zero_append, h, careBit_memoryWrite, ← hcare]
  exact hfields

theorem getLsbD_encode_of_tagBitwiseOr (mode : DecodeMode) (h : fieldTag w = Config.tagBitwiseOr) (k : Nat) :
    (encode (.bitwiseOr (fieldB w) (fieldAddress mode w) (fieldSource w))).getLsbD k =
      (careBit mode (fieldTag w) k && w.getLsbD k) := by
  rw [encode, ← h]
  refine getLsbD_append_of_careBit (fun j => ?_) k
  rw [BitVec.append_assoc, BitVec.getLsbD_cast, getLsbD_zero_append, h, careBit_bitwiseOr]
  exact getLsbD_append_fieldD_fieldC (addrBits_le mode) (getLsbD_setWidth_extractLsb' (addrBits_le mode) w 11) rfl

/-- The encoding of what a word decodes to is the word with its don't-care bits cleared. -/
theorem getLsbD_encode_of_decodeWord (h : decodeWord mode w = .ok i) (k : Nat) :
    (encode i).getLsbD k = (careBit mode (fieldTag w) k && w.getLsbD k) := by
  rcases decodeWord_ok_cases h with ⟨ht, rfl⟩ | ⟨ht, rfl⟩ | ⟨ht, rfl⟩ | ⟨ht, rfl⟩
  · exact getLsbD_encode_of_tagLoadConstant mode ht k
  · exact getLsbD_encode_of_tagMemoryRead mode ht k
  · exact getLsbD_encode_of_tagMemoryWrite mode ht k
  · exact getLsbD_encode_of_tagBitwiseOr mode ht k

/-- Settles O7: the encoding keeps the decoded bits, so it is the word when the other bits are 0 in both. -/
theorem encodeOfDecodeGivesTheWordBack : Obligations.EncodeOfDecodeGivesTheWordBack := by
  intro mode w i h
  have hbits := getLsbD_encode_of_decodeWord h
  refine ⟨hbits, fun hzero => BitVec.eq_of_getLsbD_eq fun k _ => ?_⟩
  rw [hbits]
  cases hc : careBit mode (fieldTag w) k with
  | true => exact Bool.true_and _
  | false => rw [hzero k hc, Bool.false_and]

/-! ## Words that agree on the decoded bits (R81, D2) -/

/-- Unified mode reads an instruction back from its word (R96), so the word determines it. -/
theorem encode_injective : Function.Injective encode := by
  intro i j h
  have hi := (decodeOfEncodeGivesTheInstructionBack i).1
  rw [h, (decodeOfEncodeGivesTheInstructionBack j).1] at hi
  exact (Except.ok.inj hi).symm

theorem fieldTag_eq_of_getLsbD_eq (h : ∀ k, k < 8 → v.getLsbD k = w.getLsbD k) : fieldTag v = fieldTag w := by
  refine BitVec.eq_of_getLsbD_eq fun k hk => ?_
  rw [fieldTag, fieldTag, BitVec.getLsbD_extractLsb', BitVec.getLsbD_extractLsb', Nat.zero_add, h k hk]

/-- Settles O8: both words decode, and the encodings of what they decode to are the same word, bit by bit. -/
theorem dontCareBitsAreIgnored : Obligations.DontCareBitsAreIgnored := by
  intro mode w v hw hagree
  have htag : fieldTag v = fieldTag w :=
    fieldTag_eq_of_getLsbD_eq fun k hk => hagree k (by omega) (careBit_of_lt mode _ (by omega))
  have hv : bitSlice v 7 0 ∈ assignedTags := by rwa [bitSlice_tag, htag, ← bitSlice_tag]
  obtain ⟨i, hi⟩ := decodeWord_ok_of_mem_assignedTags mode hw
  obtain ⟨j, hj⟩ := decodeWord_ok_of_mem_assignedTags mode hv
  have hij : j = i := encode_injective <| BitVec.eq_of_getLsbD_eq fun k hk => by
    rw [getLsbD_encode_of_decodeWord hj, getLsbD_encode_of_decodeWord hi, htag]
    cases hc : careBit mode (fieldTag w) k with
    | true => rw [hagree k hk hc]
    | false => rfl
  rw [hi, hj, hij]

/-! ## Bytes and words (R51) -/

/-- As many bytes as they are, the number they spell determines them. -/
theorem eq_of_leNat_eq {bs cs : List Byte} (hlen : bs.length = cs.length) (h : leNat bs = leNat cs) : bs = cs := by
  induction bs generalizing cs with
  | nil => exact (List.length_eq_zero_iff.1 hlen.symm).symm
  | cons b bs ih =>
    cases cs with
    | nil => cases hlen
    | cons c cs =>
      have hb : b.toNat < 256 := b.isLt
      have hc : c.toNat < 256 := c.isLt
      simp only [leNat] at h
      rw [BitVec.eq_of_toNat_eq (show b.toNat = c.toNat by omega), ih (Nat.succ.inj hlen) (by omega)]

theorem wordBytes_eq_map (w : CodeWord) : wordBytes w = (List.range 6).map fun k => w.extractLsb' (8 * k) 8 := rfl

/-- Settles O12: byte by byte as slices; and both the bytes and the word are determined by the number they spell. -/
theorem bytesAndWordsDetermineEachOther : Obligations.BytesAndWordsDetermineEachOther := by
  refine ⟨fun w => ?_, wordOfBytes_wordBytes, fun bs hbs => eq_of_leNat_eq hbs.symm ?_⟩
  · rw [wordBytes_eq_map, List.map_map]
    refine List.map_congr_left fun k _ => ?_
    rw [← toNat_extractLsb'_eq_bitSlice, show 8 * k + 7 + 1 - 8 * k = 8 by omega, Function.comp_apply]
  · rw [leNat_wordBytes, toNat_wordOfBytes hbs.le]

/-! ## The spec's examples -/

theorem forall_decodeMode {p : DecodeMode → Prop} (hr : p .reference) (hu : p .unified) (mode : DecodeMode) : p mode := by
  cases mode with
  | reference => exact hr
  | unified => exact hu

/-- Settles O13: each list of bytes decoded, in each mode. -/
theorem specWordsDecodeAsWritten : Obligations.SpecWordsDecodeAsWritten :=
  ⟨forall_decodeMode (by decide) (by decide), forall_decodeMode (by decide) (by decide),
    forall_decodeMode (by decide) (by decide), forall_decodeMode (by decide) (by decide), by decide, by decide⟩

end Sys2Proof.Machine
end

section
/-! The ALU's laws and the invariants of every step: canonical memory, the position within the stream, and the value bound
(10_state.md R26, R32; 20_memory.md R50; 43_bitwise_or.md R160, R162). -/

namespace Sys2Proof.Machine

variable {mode : DecodeMode} {w : CodeWord} {s t : State} {i : Instr} {K : Nat}

/-! ## The ALU (R160, R162) -/

theorem aluOr_lt {p q : Word} (hp : p.toNat < 2 ^ K) (hq : q.toNat < 2 ^ K) : (aluOr p q).toNat < 2 ^ K := by
  rw [aluOr, BitVec.toNat_or]
  exact Nat.or_lt_two_pow hp hq

theorem max_le_aluOr (p q : Word) : max p.toNat q.toNat ≤ (aluOr p q).toNat := by
  rw [aluOr, BitVec.toNat_or]
  exact Nat.max_le.2 ⟨Nat.left_le_or, Nat.right_le_or⟩

/-- Settles O24: the laws of the library's or, and the two bounds. -/
theorem aluOrHasTheLawsOfOr : Obligations.AluOrHasTheLawsOfOr :=
  ⟨fun _ _ _ => BitVec.getLsbD_or, BitVec.or_comm, BitVec.or_assoc,
    fun _ => ⟨BitVec.or_self, BitVec.or_zero, BitVec.or_allOnes⟩,
    max_le_aluOr, fun _ _ _ => aluOr_lt⟩

/-! ## Canonical memory and the position -/

/-- A step needs a whole word, so the position after it is still within the stream. -/
theorem step_keeps_byteOffset_le (h : step s = .next t) : t.byteOffset ≤ t.stream.length := by
  obtain ⟨w, hw, -⟩ := step_next_iff.1 h
  obtain ⟨hremain, -⟩ := fetch_word_iff.1 hw
  rw [byteOffset_of_pc_succ (step_advances_pc h), step_keeps_stream h]
  exact hremain

/-- Settles O35: the store of a step keeps the canonical form, and the word it fetched was whole. -/
theorem everyStepKeepsTheStateSound : Obligations.EveryStepKeepsTheStateSound :=
  fun s t ⟨hwf, _⟩ h => ⟨step_keeps_mem_wf s t hwf h, step_keeps_byteOffset_le h⟩

/-! ## The value bound (R32) -/

theorem State.ValuesBelow.readReg_lt (h : s.ValuesBelow K) (r : RegField) : (s.readReg r).toNat < 2 ^ K :=
  h.1 (regSlot r)

theorem State.ValuesBelow.readCell_lt (h : s.ValuesBelow K) (a : Nat) : (s.readCell a).toNat < 2 ^ K := h.2 a

theorem valuesBelow_of_zero (hx : ∀ k : Fin 32, s.x[k] = 0) (hmem : ∀ a, s.readCell a = 0) (K : Nat) :
    s.ValuesBelow K :=
  ⟨fun k => by rw [hx]; exact Nat.two_pow_pos K, fun a => by rw [hmem]; exact Nat.two_pow_pos K⟩

namespace Effect

variable {e : Effect}

/-- The value an effect writes to a register or a cell, if it writes one, is below `2^K`. -/
def WritesBelow (K : Nat) : Effect → Prop
  | writeReg _ v => v.toNat < 2 ^ K
  | writeCell _ v => v.toNat < 2 ^ K
  | raise _ => True

theorem guarded_writesBelow (a : Nat) (info : Condition) (h : e.WritesBelow K) : (guarded a info e).WritesBelow K := by
  rcases Nat.lt_or_ge a Config.memCells with ha | ha
  · rwa [guarded_valid ha]
  · rw [guarded_invalid ha]
    exact trivial

theorem apply_keeps_valuesBelow (hwf : s.mem.wf = true) (hs : s.ValuesBelow K) (he : e.WritesBelow K) :
    (e.apply s).ValuesBelow K := by
  obtain ⟨hx, hmem⟩ := hs
  cases e with
  | writeReg r v =>
    refine ⟨fun k => ?_, hmem⟩
    rw [apply, State.reportOk_x, getSlot_writeReg]
    split
    · exact he
    · exact hx k
  | writeCell a v =>
    refine ⟨hx, fun b => ?_⟩
    rw [apply, readCell_reportOk, readCell_writeCell hwf]
    split
    · exact he
    · exact hmem b
  | raise c => exact ⟨hx, hmem⟩

end Effect

/-- An instruction writes its immediate, a value it has read, or the or of two such values. -/
theorem effectOf_writesBelow (hs : s.ValuesBelow (Config.immBits mode)) (hi : i.wellFormed mode = true) :
    (effectOf i s).WritesBelow (Config.immBits mode) := by
  cases i with
  | loadConstant b c =>
    have hc : c.toNat < 2 ^ Config.immBits mode := of_decide_eq_true hi
    rwa [← toNat_immediate] at hc
  | memoryRead b c => exact Effect.guarded_writesBelow _ _ (hs.readCell_lt _)
  | memoryWrite b c d => exact Effect.guarded_writesBelow _ _ (hs.readReg_lt b)
  | bitwiseOr b c d => exact Effect.guarded_writesBelow _ _ (aluOr_lt (hs.readReg_lt d) (hs.readCell_lt _))

theorem wordEffect_writesBelow (hs : s.ValuesBelow (Config.immBits s.params.decodeMode)) (w : CodeWord) :
    (wordEffect w s).WritesBelow (Config.immBits s.params.decodeMode) := by
  unfold wordEffect
  cases hd : decodeWord s.params.decodeMode w with
  | ok i => exact effectOf_writesBelow hs (decodedInstructionFitsItsMode _ w i hd)
  | error e => exact trivial

theorem retire_valuesBelow (hs : s.ValuesBelow K) (i : Option Instr) : (s.retire i).ValuesBelow K := by
  simpa [State.ValuesBelow] using hs

theorem step_keeps_params (h : step s = .next t) : t.params = s.params := by
  obtain ⟨w, -, rfl⟩ := step_next_iff.1 h
  rw [State.retire_params, Effect.apply_params]

theorem step_keeps_valuesBelow (hwf : s.mem.wf = true) (hs : s.ValuesBelow (Config.immBits s.params.decodeMode))
    (h : step s = .next t) : t.ValuesBelow (Config.immBits s.params.decodeMode) := by
  obtain ⟨w, -, rfl⟩ := step_next_iff.1 h
  exact retire_valuesBelow (Effect.apply_keeps_valuesBelow hwf hs (wordEffect_writesBelow hs w)) _

/-- Settles O36: a step writes only a value below the bound and keeps the mode; the sum's two parts have their own bounds. -/
theorem everyStepKeepsValuesBelowTheBound : Obligations.EveryStepKeepsValuesBelowTheBound := by
  refine ⟨fun s t ⟨hwf, _⟩ hs h => ?_, fun s d c hs => ?_⟩
  · have hparams := step_keeps_params h
    exact ⟨hparams ▸ step_keeps_valuesBelow hwf hs h, hparams⟩
  · exact Nat.add_le_add (Nat.le_pred_of_lt (hs.readReg_lt d)) (Nat.le_pred_of_lt c.isLt)

/-- Settles O37: under the bound the exact sum is below `2^32`. -/
theorem wrappingAndExactSumAgreeUnderTheBound : Obligations.WrappingAndExactSumAgreeUnderTheBound := by
  intro s d c hs
  have hd : (s.readReg d).toNat < 2 ^ 26 :=
    Nat.lt_of_lt_of_le (hs.readReg_lt d) (Nat.pow_le_pow_right (by decide) (immBits_le _))
  have hc : c.toNat < 2 ^ 9 := c.isLt
  rw [BitVec.toNat_add, BitVec.toNat_setWidth_of_le (by decide), Nat.mod_eq_of_lt (by omega), addrBaseOffset]

/-! ## The invariants at the start -/

theorem boot_sound (h : HostSetup) : (boot h).Sound := ⟨rfl, Nat.zero_le _⟩

/-- Settles O2: with every register and every cell 0 the bounds hold, and position 0 is within any stream. -/
theorem bootedStateMeetsTheInvariants : Obligations.BootedStateMeetsTheInvariants := by
  intro h s hs
  rcases List.mem_pair.1 hs with rfl | rfl
  · exact ⟨⟨rfl, Nat.le_refl 0⟩, fun k _ => getSlot_reset k, valuesBelow_of_zero getSlot_reset readCell_reset _⟩
  · exact ⟨boot_sound h, boot_upperSlotsZero h, valuesBelow_of_zero (getSlot_boot h) (readCell_boot h) _⟩

end Sys2Proof.Machine
end

section
/-! Where a step goes on and where it stops, and the word it fetches (40_decode_dispatch.md R110, R116, R117;
70_reset_and_hazards.md R203). -/

namespace Sys2Proof.Machine

variable {w : CodeWord} {s t : State} {i : Instr}

/-! ## The three outcomes of a step are those of fetch -/

theorem step_refused_iff {r : Refusal} : step s = .refused r ↔ fetch s = .fragment ∧ r = .streamFragment := by
  unfold step
  cases fetch s with
  | word w => simp [stepFetched, stepWord_eq_apply]
  | endOfStream => simp [stepFetched]
  | fragment => simp [stepFetched, eq_comm]
  | pastEnd => simp [stepFetched]

theorem step_fault_iff {r : Fault} :
    step s = .fault r ↔ (fetch s = .endOfStream ∧ r = .endOfStream) ∨ (fetch s = .pastEnd ∧ r = .positionPastEnd) := by
  unfold step
  cases fetch s with
  | word w => simp [stepFetched, stepWord_eq_apply]
  | endOfStream => simp [stepFetched, eq_comm]
  | fragment => simp [stepFetched]
  | pastEnd => simp [stepFetched, eq_comm]

theorem exists_step_next_iff : (∃ t, step s = .next t) ↔ s.byteOffset + 6 ≤ s.stream.length := by
  constructor
  · rintro ⟨t, h⟩
    obtain ⟨w, hw, -⟩ := step_next_iff.1 h
    exact (fetch_word_iff.1 hw).1
  · intro hremain
    exact ⟨_, step_next_iff.2 ⟨_, fetch_eq_word hremain, rfl⟩⟩

/-- Settles O17: the step refuses exactly the fragment that fetch finds. -/
theorem trailingFragmentIsRefused : Obligations.TrailingFragmentIsRefused :=
  fun _ => step_refused_iff.trans (Iff.trans (and_iff_left rfl) fetch_fragment_iff)

/-- In a sound state the position is not beyond the stream, which leaves the end of the stream. -/
theorem step_fault_iff_of_sound {r : Fault} (hs : s.Sound) :
    step s = .fault r ↔ r = .endOfStream ∧ s.byteOffset = s.stream.length := by
  obtain ⟨-, hle⟩ := hs
  have hnot : fetch s ≠ .pastEnd := fun h => Nat.not_lt.2 hle (fetch_pastEnd_iff.1 h)
  rw [step_fault_iff, fetch_end_iff]
  simp [hnot, and_comm]

/-- Settles O18: the outcomes of the step, by what fetch finds. -/
theorem stepGoesOnWhileAWholeWordRemains : Obligations.StepGoesOnWhileAWholeWordRemains :=
  fun _ => ⟨exists_step_next_iff, fun _ h => (step_refused_iff.1 h).2, fun hs _ => step_fault_iff_of_sound hs⟩

/-! ## A placed word -/

theorem length_wordBytes (w : CodeWord) : (wordBytes w).length = 6 := rfl

/-- The bytes of a placed word stand at the offset it was placed at. -/
theorem take_drop_placeWord (w : CodeWord) (o : Nat) (stream : List Byte) :
    ((placeWord w o stream).drop o).take 6 = wordBytes w := by
  have hprefix : (stream.take o ++ List.replicate (o - stream.length) 0).length = o := by
    simp only [List.length_append, List.length_take, List.length_replicate]
    omega
  rw [placeWord, List.append_assoc, List.drop_left' hprefix, List.take_left' (length_wordBytes w)]

theorem le_length_placeWord (w : CodeWord) (o : Nat) (stream : List Byte) : o + 6 ≤ (placeWord w o stream).length := by
  simp only [placeWord, List.length_append, List.length_take, List.length_replicate, length_wordBytes]
  omega

/-- Settles O19: a whole word remains at the position, and its bytes are those of the placed word. -/
theorem placedWordIsFetchedNext : Obligations.PlacedWordIsFetchedNext := by
  intro s w hw
  refine ⟨?_, State.withFetchWord_pc s 48 w, State.withFetchWord_x s 48 w, State.withFetchWord_mem s 48 w⟩
  refine fetch_word_iff.2 ⟨le_length_placeWord _ s.byteOffset _, ?_⟩
  exact (((congrArg wordOfBytes (take_drop_placeWord _ s.byteOffset s.stream)).trans
    (wordOfBytes_wordBytes _)).trans (tableWord_of_lt hw)).symm

/-! ## The step on decoded bytes -/

/-- Where a whole word remains, the bytes at the position decode as the word that is fetched. -/
theorem decodeBytes_at_position (h : s.byteOffset + 6 ≤ s.stream.length) :
    decodeBytes s.params.decodeMode (s.stream.drop s.byteOffset) =
      decodeWord s.params.decodeMode (wordAtPosition s) := by
  have hlen : ¬ (s.stream.drop s.byteOffset).length < Config.wordBytes := by
    rw [List.length_drop, Config.wordBytes]
    omega
  rw [decodeBytes, if_neg hlen, wordAtPosition]

/-- Settles O14: the fetched word is the one that decodes to `i`, so the step is the end of that instruction's arm. -/
theorem stepRunsTheDecodedInstruction : Obligations.StepRunsTheDecodedInstruction := by
  intro s i hremain hdec
  have hdecode : decodeWord s.params.decodeMode (wordAtPosition s) = .ok i :=
    (decodeBytes_at_position hremain).symm.trans hdec
  have hstep : step s = retireOutcome i (exec i s) := by
    rw [step, fetch_eq_word hremain, stepFetched, stepWord, hdecode]
  refine ⟨hstep, fun u hu => ?_, fun u => ?_⟩
  · rw [hstep, hu, retireOutcome]
  · exact ⟨State.retire_pc u _, State.retire_x u _, State.retire_mem u _, State.retire_stream u _,
      State.retire_params u _, State.retire_condOut u _, State.retire_conditions u _⟩

end Sys2Proof.Machine
end

section
/-! MEMORY_WRITE, BITWISE_OR and LOAD_CONSTANT's word (42_memory_access.md R143, 43_bitwise_or.md R161,
41_load_constant.md R131). -/

namespace Sys2Proof.Machine

variable {w : CodeWord} {s : State}

/-! ## MEMORY_WRITE -/

theorem toNat_fieldOffset (w : CodeWord) : (fieldOffset w).toNat = bitSlice w 19 11 :=
  toNat_extractLsb'_eq_bitSlice w 19 11

theorem toNat_fieldBase (w : CodeWord) : (fieldBase w).toNat = bitSlice w 22 20 :=
  toNat_extractLsb'_eq_bitSlice w 22 20

theorem effectOf_memoryWrite_valid (b : RegField) {c : BitVec 9} {d : RegField}
    (h : addrBaseOffset d c s < Config.memCells) :
    effectOf (.memoryWrite b c d) s = .writeCell (addrBaseOffset d c s) (s.readReg b) :=
  Effect.guarded_valid h

theorem Effect.readCell_apply_writeCell (hwf : s.mem.wf = true) (a : Nat) (v : Word) (b : Nat) :
    ((writeCell a v).apply s).readCell b = if a = b then v else s.readCell b :=
  readCell_writeCell hwf b

/-- Settles O22: the decoder's three fields as slices of the word, and `exec` as one store of the register read before it,
or as the raise alone. -/
theorem memoryWriteStoresTheSourceRegister : Obligations.MemoryWriteStoresTheSourceRegister := by
  refine ⟨fun mode w h => ?_, fun b c d s hwf h => ?_, fun b c d s h => ?_⟩
  · exact ⟨_, _, _, decodeWord_of_tagMemoryWrite (fieldTag_eq_of_bitSlice h), toNat_fieldB w, toNat_fieldOffset w,
      toNat_fieldBase w⟩
  · refine ⟨_, exec_eq_apply _ s, ?_⟩
    rw [effectOf_memoryWrite_valid b h]
    have hcell := Effect.readCell_apply_writeCell hwf (addrBaseOffset d c s) (s.readReg b)
    exact ⟨(hcell _).trans (if_pos rfl), rfl, fun a ha => (hcell a).trans (if_neg ha.symm), rfl,
      ⟨rfl, rfl, rfl, rfl⟩, rfl, rfl⟩
  · exact ⟨_, exec_eq_apply _ s, Effect.apply_guarded_onlyRaises _ _ s h⟩

/-! ## BITWISE_OR -/

theorem toNat_fieldSource (w : CodeWord) : (fieldSource w).toNat = bitSlice w 40 38 :=
  toNat_extractLsb'_eq_bitSlice w 40 38

theorem toNat_fieldAddress_reference (w : CodeWord) : (fieldAddress .reference w).toNat = bitSlice w 31 11 :=
  (toNat_fieldAddress_eq_extract .reference w).trans (toNat_extractLsb'_eq_bitSlice w 31 11)

theorem toNat_fieldAddress_unified (w : CodeWord) : (fieldAddress .unified w).toNat = bitSlice w 37 11 :=
  (toNat_fieldAddress_eq_extract .unified w).trans (toNat_extractLsb'_eq_bitSlice w 37 11)

theorem effectOf_bitwiseOr_valid (b : RegField) {c : BitVec 27} (d : RegField) (h : addrAbsolute c < Config.memCells) :
    effectOf (.bitwiseOr b c d) s = .writeReg b (aluOr (s.readReg d) (s.readCell (addrAbsolute c))) :=
  Effect.guarded_valid h

/-- Settles O23: the decoder's three fields as slices of the word, and `exec` as one register write of the or of the values
read before it, or as the raise alone. -/
theorem bitwiseOrWritesTheOr : Obligations.BitwiseOrWritesTheOr := by
  refine ⟨fun mode w h => ?_, fun b c d s h => ?_, fun b c d s h => ?_⟩
  · refine ⟨_, _, _, decodeWord_of_tagBitwiseOr (fieldTag_eq_of_bitSlice h), toNat_fieldB w, toNat_fieldSource w, ?_⟩
    cases mode with
    | reference => exact toNat_fieldAddress_reference w
    | unified => exact toNat_fieldAddress_unified w
  · refine ⟨_, exec_eq_apply _ s, ?_⟩
    rw [effectOf_bitwiseOr_valid b d h]
    refine ⟨fun k => ?_, Effect.apply_writeReg_frame b _ s⟩
    rw [Effect.readReg_apply_writeReg, aluOr, BitVec.getLsbD_or, addrAbsolute]
  · exact ⟨_, exec_eq_apply _ s, Effect.apply_guarded_onlyRaises _ _ s h⟩

/-! ## The word of a LOAD_CONSTANT -/

/-- A fetched word of `LOAD_CONSTANT R<r>, #<v>` is stepped as the instruction that the mode reads back. -/
theorem step_of_encoded_loadConstant {r : RegField} {v : BitVec 26} (hw : fetch s = .word (encode (.loadConstant r v))) :
    step s = .next (((Effect.writeReg r
      (immediate (BitVec.ofNat 26 (v.toNat % 2 ^ Config.immBits s.params.decodeMode)))).apply s).retire
        (some (Instr.truncate s.params.decodeMode (.loadConstant r v)))) := by
  refine step_next_iff.2 ⟨_, hw, ?_⟩
  rw [wordEffect, decodeWord_encode]
  rfl

theorem toNat_immediate_truncated (mode : DecodeMode) (v : BitVec 26) :
    (immediate (BitVec.ofNat 26 (v.toNat % 2 ^ Config.immBits mode))).toNat = v.toNat % 2 ^ Config.immBits mode := by
  rw [toNat_immediate, BitVec.toNat_ofNat, Nat.mod_eq_of_lt (Nat.lt_of_le_of_lt (Nat.mod_le _ _) v.isLt)]

/-- Settles O26: the step is one register write of the cut immediate, and its end only advances. -/
theorem loadConstantWordLoadsTheTruncatedImmediate : Obligations.LoadConstantWordLoadsTheTruncatedImmediate := by
  intro s r v hw
  refine ⟨_, step_of_encoded_loadConstant hw, ?_, fun k hk => ?_, fun a => ?_, ?_⟩
  · rw [readReg_retire, Effect.readReg_apply_writeReg, toNat_immediate_truncated]
  · rw [State.retire_x]
    exact (Effect.apply_writeReg_frame r _ s).1 k hk
  · exact readCell_retire _
  · rw [State.retire_pc, Effect.apply_pc]

end Sys2Proof.Machine
end

section
/-! What a step reports, records and stores, and what the verbose trace shows (10_state.md R36, R38; 60_exceptions.md
section 1). -/

namespace Sys2Proof.Machine

variable {w : CodeWord} {s t : State} {i : Instr}

/-! ## The report of an effect (R36, R110) -/

namespace Effect

/-- What `cond_out` says of an effect. -/
def report : Effect → Report
  | writeReg _ _ => .ok
  | writeCell _ _ => .ok
  | raise c => .raised c

@[simp] theorem apply_condOut (e : Effect) (s : State) : (e.apply s).condOut = some e.report := by cases e <;> rfl

@[simp] theorem apply_trace (e : Effect) (s : State) : (e.apply s).trace = s.trace := by cases e <;> rfl

/-- An effect reports `OK` and leaves the history, or raises one condition and appends it. -/
theorem apply_history (e : Effect) (s : State) :
    ((e.apply s).condOut = some .ok ∧ (e.apply s).conditions = s.conditions) ∨
      ∃ c, (e.apply s).condOut = some (.raised c) ∧ (e.apply s).conditions = s.conditions ++ [c] := by
  cases e with
  | writeReg r v => exact .inl ⟨rfl, rfl⟩
  | writeCell a v => exact .inl ⟨rfl, rfl⟩
  | raise c => exact .inr ⟨c, rfl, rfl⟩

end Effect

/-- Settles O31: the history of the step is that of its effect. -/
theorem historyGrowsByTheStepsCondition : Obligations.HistoryGrowsByTheStepsCondition := by
  intro s t h
  obtain ⟨w, -, rfl⟩ := step_next_iff.1 h
  rw [State.retire_condOut, State.retire_conditions]
  exact Effect.apply_history _ s

/-! ## The code follows the cause (R171, R172) -/

theorem Report.code_eq_zero_iff (r : Report) : r.code = 0 ↔ r = .ok := by
  rcases r with _ | (_ | _) <;> simp [Report.code]

/-- An instruction reports `OK`, and then its address, if it forms one, is a valid cell; or it reports `OutOfBounds`, and
then its address is none. -/
theorem report_effectOf_cases (i : Instr) (s : State) :
    ((effectOf i s).report = .ok ∧ ∀ a, cellAddress s i = some a → a < Config.memCells) ∨
      ∃ a b c d, cellAddress s i = some a ∧ Config.memCells ≤ a ∧
        (effectOf i s).report = .raised (.outOfBounds i.tag b c d a) := by
  cases ha : cellAddress s i with
  | none =>
    cases i with
    | loadConstant b c => exact .inl ⟨rfl, fun _ h => by cases h⟩
    | memoryRead b c => cases ha
    | memoryWrite b c d => cases ha
    | bitwiseOr b c d => cases ha
  | some a =>
    obtain ⟨b, c, d, e, he, hok⟩ := effectOf_of_cellAddress ha
    rw [he]
    rcases Nat.lt_or_ge a Config.memCells with hlt | hge
    · rw [Effect.guarded_valid hlt]
      rw [Effect.apply_condOut, Option.some_inj] at hok
      exact .inl ⟨hok, fun _ h => Option.some.inj h ▸ hlt⟩
    · rw [Effect.guarded_invalid hge]
      exact .inr ⟨a, b, c, d, rfl, hge, rfl⟩

theorem report_effectOf_code_ne_one (i : Instr) (s : State) : (effectOf i s).report.code ≠ 1 := by
  rcases report_effectOf_cases i s with ⟨hr, -⟩ | ⟨a, b, c, d, -, -, hr⟩ <;> rw [hr] <;> simp [Report.code]

theorem report_effectOf_code_eq_two_iff (i : Instr) (s : State) :
    (effectOf i s).report.code = 2 ↔ ∃ a, cellAddress s i = some a ∧ Config.memCells ≤ a := by
  rcases report_effectOf_cases i s with ⟨hr, hvalid⟩ | ⟨a, b, c, d, ha, hge, hr⟩
  · rw [hr]
    exact iff_of_false (by decide) fun ⟨a, ha, hge⟩ => Nat.not_lt.2 hge (hvalid a ha)
  · rw [hr]
    exact iff_of_true rfl ⟨a, ha, hge⟩

theorem report_wordEffect_code_eq_one_iff (w : CodeWord) (s : State) :
    (wordEffect w s).report.code = 1 ↔ bitSlice w 7 0 ∉ assignedTags := by
  by_cases h : bitSlice w 7 0 ∈ assignedTags
  · obtain ⟨i, hi⟩ := decodeWord_ok_of_mem_assignedTags s.params.decodeMode h
    rw [wordEffect, hi]
    exact iff_of_false (report_effectOf_code_ne_one i s) (not_not_intro h)
  · rw [wordEffect, decodeWord_of_unassigned h]
    exact iff_of_true rfl h

theorem report_wordEffect_code_eq_two_iff (w : CodeWord) (s : State) :
    (wordEffect w s).report.code = 2 ↔
      ∃ i a, decodeWord s.params.decodeMode w = .ok i ∧ cellAddress s i = some a ∧ Config.memCells ≤ a := by
  rw [wordEffect]
  cases hd : decodeWord s.params.decodeMode w with
  | ok i => simpa using report_effectOf_code_eq_two_iff i s
  | error e => simp [Effect.report, Report.code]

/-- Settles O30: the report of the step is that of its effect, whose code follows the word's tag and the address. -/
theorem reportCodesFollowTheirCauses : Obligations.ReportCodesFollowTheirCauses := by
  intro s w hw
  refine ⟨_, (wordEffect w s).report, step_next_iff.2 ⟨w, hw, rfl⟩, ?_, report_wordEffect_code_eq_one_iff w s,
    report_wordEffect_code_eq_two_iff w s, Report.code_eq_zero_iff _⟩
  rw [State.retire_condOut, Effect.apply_condOut]

/-! ## The one cell that may change -/

/-- Settles O32: a step leaves in each cell what its own store, if it makes one, leaves there. -/
theorem onlyMemoryWriteChangesACell : Obligations.OnlyMemoryWriteChangesACell := by
  intro s t hwf h a
  rw [readCell_step hwf h]
  cases storeOf s with
  | none => rfl
  | some p => rfl

/-! ## The verbose trace (R38, R184) -/

theorem State.traces_of_off (h : s.params.verboseTrace = false) : s.traces = false := by
  rw [State.traces, h, Bool.false_and]

theorem State.traces_of_ok (h : s.params.verboseTrace = true) (hok : s.condOut = some .ok) : s.traces = true := by
  rw [State.traces, h, hok]
  rfl

theorem State.retire_trace_of_off (i : Option Instr) (h : s.params.verboseTrace = false) :
    (s.retire i).trace = s.trace := by
  rw [State.retire_trace, State.traces_of_off h]
  rfl

theorem State.retire_trace_of_ok (i : Option Instr) (h : s.params.verboseTrace = true) (hok : s.condOut = some .ok) :
    (s.retire i).trace = s.trace ++ [s.snapshot i] := by
  rw [State.retire_trace, State.traces_of_ok h hok, if_pos rfl]

theorem State.retire_trace_cases (i : Option Instr) (s : State) :
    (s.retire i).trace = s.trace ∨ ∃ r, (s.retire i).trace = s.trace ++ [r] := by
  rw [State.retire_trace]
  split
  · exact .inr ⟨_, rfl⟩
  · exact .inl rfl

/-- A word whose effect reports `OK` was decoded: any other raises `InvalidOpcode` (R114). -/
theorem exists_decodeWord_ok_of_report (h : (wordEffect w s).report = .ok) :
    ∃ i, decodeWord s.params.decodeMode w = .ok i := by
  rw [wordEffect] at h
  cases hd : decodeWord s.params.decodeMode w with
  | ok i => exact ⟨i, rfl⟩
  | error e => simp [hd, Effect.report] at h

theorem snapshot_cells (i : Option Instr) (s : State) (k : Fin 16) : (s.snapshot i).cells[k] = s.readCell k.val := by
  simp [State.snapshot]

theorem step_trace_of_ok (hon : s.params.verboseTrace = true) (h : step s = .next t) (hok : t.condOut = some .ok) :
    ∃ w i r, fetch s = .word w ∧ decodeWord s.params.decodeMode w = .ok i ∧ t.trace = s.trace ++ [r] ∧
      r.instr = some i ∧ r.regs = t.x ∧ ∀ k : Fin 16, r.cells[k] = t.readCell k.val := by
  obtain ⟨w, hw, rfl⟩ := step_next_iff.1 h
  rw [State.retire_condOut] at hok
  obtain ⟨i, hi⟩ := exists_decodeWord_ok_of_report (Option.some.inj (Effect.apply_condOut _ s ▸ hok))
  refine ⟨w, i, ((wordEffect w s).apply s).snapshot (some i), hw, hi, ?_, rfl, ?_, fun k => ?_⟩
  · rw [State.retire_trace_of_ok _ (by rwa [Effect.apply_params]) hok, Effect.apply_trace, hi]
    rfl
  · exact (State.retire_x _ _).symm
  · rw [snapshot_cells, readCell_retire]

/-- The trace toggle is no part of the machine that a step depends on (R122). -/
theorem sameMachine_of_verboseTrace (s : State) (on : Bool) :
    SameMachine s { s with params := { s.params with verboseTrace := on } } :=
  ⟨rfl, rfl, rfl, rfl, rfl⟩

/-- Settles O40: the step's end adds the snapshot of the effect's state or nothing, and states that differ by the toggle are
of one machine. -/
theorem traceShowsEveryExecutedInstruction : Obligations.TraceShowsEveryExecutedInstruction := by
  refine ⟨fun s t hoff h => ?_, fun s t hon h hok => step_trace_of_ok hon h hok, fun s t h _ => ?_, fun s on t h => ?_⟩
  · obtain ⟨w, -, rfl⟩ := step_next_iff.1 h
    rw [State.retire_trace_of_off _ (by rwa [Effect.apply_params]), Effect.apply_trace]
  · obtain ⟨w, -, rfl⟩ := step_next_iff.1 h
    simpa using State.retire_trace_cases (decodeWord s.params.decodeMode w).toOption ((wordEffect w s).apply s)
  · obtain ⟨v, hv, ⟨hx, hmem, hpc, -, -⟩, hout, hconds⟩ := step_sameMachine (sameMachine_of_verboseTrace s on) h
    exact ⟨v, hv, hx, hmem, hpc, hout, hconds rfl⟩

end Sys2Proof.Machine
end

section
/-! How a set-up ends, and the host's view of the final memory (70_reset_and_hazards.md R203, R205, R206; 10_state.md
R37). -/

namespace Sys2Proof.Machine

variable {h : HostSetup} {s : State}

/-! ## A stream that ends in a fragment (R205, D5) -/

/-- After the whole words of a stream whose length is no multiple of 6, a fragment is left. -/
theorem step_of_fragment_left (hpc : s.pc = s.stream.length / 6) (hmod : s.stream.length % 6 ≠ 0) :
    step s = .refused .streamFragment := by
  refine step_refused_iff.2 ⟨fetch_fragment_iff.2 ?_, rfl⟩
  rw [State.byteOffset, hpc, Config.wordBytes]
  omega

/-- Settles O42: the whole words are that many steps from the boot, and the state after them refuses. -/
theorem aFragmentRunHasNoFinalState : Obligations.AFragmentRunHasNoFinalState := by
  intro h start hstart hmod
  obtain ⟨-, rfl⟩ := startRun_some_iff.1 hstart
  obtain ⟨s, hrun, hpc, hstream⟩ := runSteps_boot_of_words (h := h) (Nat.mul_div_le h.stream.length 6)
  have hrefused : step s = .refused .streamFragment := step_of_fragment_left (hstream ▸ hpc) (hstream ▸ hmod)
  refine ⟨⟨s, hrun, hrefused⟩, ?_⟩
  rw [runToEnd_of_start hstart]
  exact (runFrom_add hrun 0).trans (runFrom_refused hrefused)

/-! ## A failed open (R203, R175) -/

theorem startRun_eq_none_iff : startRun h = none ↔ h.inputOpens = false ∨ h.outputOpens = false := by
  simp [startRun, imp_iff_not_or]

theorem exists_startRun_iff : (∃ s, startRun h = some s) ↔ h.inputOpens = true ∧ h.outputOpens = true := by
  simp [startRun_some_iff]

theorem runToEnd_eq_aborted_iff : runToEnd h = .aborted ↔ startRun h = none := by
  refine ⟨fun hend => ?_, runToEnd_of_no_start⟩
  cases hs : startRun h with
  | none => rfl
  | some s => exact absurd ((runToEnd_of_start hs).symm.trans hend) (runFrom_ne_aborted _ s)

/-- A run of whole words that starts ends normally, whatever its words are. -/
theorem runToEnd_finished_iff (hmod : h.stream.length % 6 = 0) :
    (∃ t report, runToEnd h = .finished t report) ↔ ∃ s, startRun h = some s := by
  constructor
  · rintro ⟨t, report, hend⟩
    refine Option.ne_none_iff_exists'.1 fun hnone => ?_
    rw [runToEnd_of_no_start hnone] at hend
    cases hend
  · rintro ⟨s, hs⟩
    obtain ⟨-, -, -, t, -, -, hend⟩ := aRunExecutesEveryWordOnceInOrder h s (h.stream.length / 6) hs (by omega)
    exact ⟨t, _, hend⟩

/-- Settles O44: the set-up alone decides whether a run starts, and a run that starts is not aborted. -/
theorem aFailedOpenMeansNoRun : Obligations.AFailedOpenMeansNoRun := by
  intro h
  refine ⟨startRun_eq_none_iff, fun s hs => ?_, runToEnd_eq_aborted_iff.trans startRun_eq_none_iff,
    fun hmod => (runToEnd_finished_iff hmod).trans exists_startRun_iff⟩
  obtain ⟨-, rfl⟩ := startRun_some_iff.1 hs
  exact ⟨rfl, boot_stream h, boot_pc h⟩

/-! ## The result report and `host_mem` (R206, R37) -/

theorem mem_resultReport_iff {i : Nat} {v : Word} :
    (i, v) ∈ resultReport s ↔ (windowFirst s.params ≤ i ∧ i < windowLimit s.params) ∧ v = s.readCell i := by
  simp only [resultReport, List.mem_map, List.mem_range'_1, Prod.mk.injEq]
  constructor
  · rintro ⟨k, hk, rfl, rfl⟩
    exact ⟨by omega, rfl⟩
  · rintro ⟨hi, rfl⟩
    exact ⟨i, by omega, rfl, rfl⟩

/-- The clamped window is the intersection of the window with the cells that exist (D18). -/
theorem mem_window_iff (p : Params) (i : Nat) :
    (windowFirst p ≤ i ∧ i < windowLimit p) ↔
      i < 1024 ∧ p.windowStart ≤ (i : Int) ∧ (i : Int) ≤ p.windowEnd := by
  rw [windowFirst, windowLimit, Config.memCells]
  omega

theorem resultReport_pairwise (s : State) : (resultReport s).Pairwise fun p q => p.1 < q.1 := by
  rw [resultReport, List.pairwise_map]
  exact List.pairwise_lt_range'

theorem resultReport_eq_nil_of_empty_window (hempty : s.params.windowEnd < s.params.windowStart) :
    resultReport s = [] := by
  refine List.eq_nil_iff_forall_not_mem.2 fun ⟨i, v⟩ hmem => ?_
  obtain ⟨hwindow, -⟩ := mem_resultReport_iff.1 hmem
  obtain ⟨-, hstart, hend⟩ := (mem_window_iff s.params i).1 hwindow
  omega

theorem hostMem_eq_some_iff {i : Nat} {v : Word} : hostMem s i = some v ↔ i < Config.memCells ∧ v = s.readCell i := by
  rw [hostMem, Option.ite_none_right_eq_some, Option.some_inj, eq_comm (a := v)]

/-- Settles O43: the report runs over the clamped window in ascending order, and `host_mem` over all cells. -/
theorem theReportListsTheClampedWindow : Obligations.TheReportListsTheClampedWindow := by
  refine fun s => ⟨fun i v => ?_, resultReport_pairwise s, resultReport_eq_nil_of_empty_window,
    fun _ _ => hostMem_eq_some_iff⟩
  rw [mem_resultReport_iff, mem_window_iff, and_assoc, and_assoc]

end Sys2Proof.Machine
end

section
/-! The assembler's pass over a source (30_encoding.md section 5: R85, R93, R94). -/

namespace Sys2Proof.Machine

variable {policy : AsmRangePolicy} {m : Token} {ops rest tokens : List Token} {i : Instr} {fuel fuel' : Nat}

@[simp] theorem assembleTokens_nil (policy : AsmRangePolicy) (fuel : Nat) :
    assembleTokens policy fuel [] = AsmResult.empty := by
  cases fuel <;> rfl

/-! ## The outputs (R93, R94) -/

@[simp] theorem AsmResult.emit_binary (i : Instr) (r : AsmResult) :
    (AsmResult.emit i r).binary = encodeBytes i ++ r.binary := rfl
@[simp] theorem AsmResult.emit_log (i : Instr) (r : AsmResult) : (AsmResult.emit i r).log = i :: r.log := rfl
@[simp] theorem AsmResult.emit_error (i : Instr) (r : AsmResult) : (AsmResult.emit i r).error = r.error := rfl

/-- The output of the tokens before a failing instruction: the same words and records, and no error. -/
def AsmResult.withoutError (r : AsmResult) : AsmResult := { r with error := none }

theorem AsmResult.withoutError_emit (i : Instr) (r : AsmResult) :
    (AsmResult.emit i r).withoutError = AsmResult.emit i r.withoutError := rfl

/-- An output that is `front` and then `r`. -/
def AsmResult.prepend (front : List Instr) (r : AsmResult) : AsmResult :=
  { binary := (front.map encodeBytes).flatten ++ r.binary, log := front ++ r.log, error := r.error }

theorem AsmResult.emit_prepend (i : Instr) (front : List Instr) (r : AsmResult) :
    AsmResult.emit i (r.prepend front) = r.prepend (i :: front) := by
  simp [AsmResult.emit, AsmResult.prepend]

/-! ## One round with more or less fuel -/

theorem AsmResult.operands_eq_of_failed_eq {ops ops' : List Token}
    (h : AsmResult.failed m ops = AsmResult.failed m ops') : ops = ops' := by
  simpa [AsmResult.failed] using h

/-- The operand tokens of an error are the tokens that follow the failing mnemonic (R93). -/
theorem prefix_of_assembleTokens_failed (h : assembleTokens policy (fuel + 1) (m :: rest) = AsmResult.failed m ops) :
    ops <+: rest := by
  rw [assembleTokens] at h
  split at h
  · exact AsmResult.operands_eq_of_failed_eq h ▸ List.nil_prefix
  · split at h
    · exact AsmResult.operands_eq_of_failed_eq h ▸ List.take_prefix _ rest
    · cases congrArg AsmResult.log h

/-- One round depends on the fuel only through what is left after it. -/
theorem assembleTokens_succ_congr (m : Token)
    (h : ∀ after, after.length ≤ rest.length → assembleTokens policy fuel after = assembleTokens policy fuel' after) :
    assembleTokens policy (fuel + 1) (m :: rest) = assembleTokens policy (fuel' + 1) (m :: rest) := by
  rw [assembleTokens, assembleTokens]
  simp only [h (rest.drop _) (by simp)]

/-- As much fuel as there are tokens never runs out, so any two such amounts do alike. -/
theorem assembleTokens_eq_of_length_le (h : tokens.length ≤ fuel) (h' : tokens.length ≤ fuel') :
    assembleTokens policy fuel tokens = assembleTokens policy fuel' tokens := by
  induction fuel generalizing fuel' tokens with
  | zero => rw [List.length_eq_zero_iff.1 (Nat.le_zero.1 h), assembleTokens_nil, assembleTokens_nil]
  | succ fuel ih =>
    cases tokens with
    | nil => rw [assembleTokens_nil, assembleTokens_nil]
    | cons m rest =>
      cases fuel' with
      | zero => cases h'
      | succ fuel' =>
        rw [List.length_cons] at h h'
        exact assembleTokens_succ_congr m fun after hafter => ih (by omega) (by omega)

/-! ## One word per assembled instruction -/

theorem length_encodeBytes (i : Instr) : (encodeBytes i).length = 6 := rfl

theorem length_flatten_encodeBytes (l : List Instr) : (l.map encodeBytes).flatten.length = 6 * l.length := by
  induction l with
  | nil => rfl
  | cons i l ih =>
    rw [List.map_cons, List.flatten_cons, List.length_append, ih, length_encodeBytes, List.length_cons]
    omega

theorem assembleTokens_binary (policy : AsmRangePolicy) (fuel : Nat) (tokens : List Token) :
    (assembleTokens policy fuel tokens).binary = ((assembleTokens policy fuel tokens).log.map encodeBytes).flatten := by
  induction fuel generalizing tokens with
  | zero => cases tokens <;> rfl
  | succ fuel ih =>
    cases tokens with
    | nil => rfl
    | cons m rest =>
      rcases assembleTokens_cases policy fuel m rest with ⟨ops, h⟩ | ⟨ops, after, i, -, -, h⟩
      · rw [h]
        rfl
      · rw [h, AsmResult.emit_binary, AsmResult.emit_log, ih, List.map_cons, List.flatten_cons]

/-- The tokens that a pass went through are those of the logged instructions, and what is left is where it stopped. -/
theorem assembleTokens_splits (policy : AsmRangePolicy) (fuel : Nat) (tokens : List Token) :
    ∃ (prog : List SourceInstr) (rest : List Token), (∀ p ∈ prog, p.Parses policy) ∧
      tokens = (prog.map SourceInstr.tokens).flatten ++ rest ∧
      (assembleTokens policy fuel tokens).log = prog.map SourceInstr.instr ∧
      ((assembleTokens policy fuel tokens).error = none ↔ rest = []) := by
  have hstopped : ∀ (m : Token) (ops rest : List Token),
      (AsmResult.failed m ops).error = none ↔ m :: rest = [] := fun m ops rest => by simp [AsmResult.failed]
  induction fuel generalizing tokens with
  | zero =>
    cases tokens with
    | nil => exact ⟨[], [], by simp, rfl, rfl, by simp [AsmResult.empty]⟩
    | cons m rest => exact ⟨[], m :: rest, by simp, rfl, rfl, hstopped m [] rest⟩
  | succ fuel ih =>
    cases tokens with
    | nil => exact ⟨[], [], by simp, rfl, rfl, by simp [AsmResult.empty]⟩
    | cons m rest =>
      rcases assembleTokens_cases policy fuel m rest with ⟨ops, h⟩ | ⟨ops, after, i, rfl, hparse, h⟩
      · rw [h]
        exact ⟨[], m :: rest, by simp, rfl, rfl, hstopped m ops rest⟩
      · obtain ⟨prog, rest, hprog, htokens, hlog, herror⟩ := ih after
        refine ⟨⟨m, ops, i⟩ :: prog, rest, List.forall_mem_cons.2 ⟨hparse, hprog⟩, ?_, ?_, ?_⟩
        · simp [SourceInstr.tokens, htokens]
        · rw [h, AsmResult.emit_log, hlog, List.map_cons]
        · rw [h, AsmResult.emit_error, herror]

/-- Instructions that parse are assembled first, whatever follows them. -/
theorem assembleTokens_append (prog : List SourceInstr) (hprog : ∀ p ∈ prog, p.Parses policy)
    (hfuel : ((prog.map SourceInstr.tokens).flatten ++ rest).length ≤ fuel) :
    assembleTokens policy fuel ((prog.map SourceInstr.tokens).flatten ++ rest) =
      (assembleTokens policy rest.length rest).prepend (prog.map SourceInstr.instr) := by
  induction prog generalizing fuel with
  | nil => exact assembleTokens_eq_of_length_le hfuel (Nat.le_refl _)
  | cons p prog ih =>
    obtain ⟨hp, hprog⟩ := List.forall_mem_cons.1 hprog
    rw [List.map_cons, List.flatten_cons, SourceInstr.tokens, List.cons_append, List.cons_append, List.append_assoc]
      at hfuel ⊢
    rw [List.length_cons, List.length_append] at hfuel
    cases fuel with
    | zero => cases hfuel
    | succ fuel =>
      rw [assembleTokens_of_parseInstr fuel hp, ih hprog (by omega), AsmResult.emit_prepend, List.map_cons]

/-- Settles O46: the words are those of the log, and the log is that of the instructions that the tokens begin with. -/
theorem assemblerWritesOneWordPerInstruction : Obligations.AssemblerWritesOneWordPerInstruction := by
  intro policy text
  have hbinary := assembleTokens_binary policy (tokenize text).length (tokenize text)
  refine ⟨hbinary, ?_, assembleTokens_splits policy _ _, fun prog rest hprog htokens => ?_⟩
  · exact (congrArg List.length hbinary).trans (length_flatten_encodeBytes _)
  · rw [assembleWith, htokens, assembleTokens_append prog hprog (Nat.le_refl _), AsmResult.prepend, List.map_map]
    rfl

/-! ## The first error (R93, D10) -/

theorem assembleTokens_of_error {e : SyntaxError} (h : (assembleTokens policy fuel tokens).error = some e) :
    ∃ before after, tokens = before ++ e.rawTokens ++ after ∧
      assembleTokens policy fuel before = (assembleTokens policy fuel tokens).withoutError := by
  induction fuel generalizing tokens with
  | zero =>
    cases tokens with
    | nil => cases h
    | cons m rest =>
      obtain rfl : _ = e := Option.some.inj h
      exact ⟨[], rest, rfl, rfl⟩
  | succ fuel ih =>
    cases tokens with
    | nil => cases h
    | cons m rest =>
      rcases assembleTokens_cases policy fuel m rest with ⟨ops, hfail⟩ | ⟨ops, after, i, rfl, hparse, hemit⟩
      · obtain ⟨after, rfl⟩ := prefix_of_assembleTokens_failed hfail
        rw [hfail] at h ⊢
        obtain rfl : _ = e := Option.some.inj h
        exact ⟨[], after, rfl, rfl⟩
      · rw [hemit] at h ⊢
        obtain ⟨before, after, rfl, hbefore⟩ := ih h
        refine ⟨m :: (ops ++ before), after, by simp, ?_⟩
        rw [assembleTokens_of_parseInstr fuel hparse, hbefore, AsmResult.withoutError_emit]

/-- Settles O47: the pass over the tokens before the failing instruction gives the same words and records. -/
theorem assemblyStopsAtTheFirstError : Obligations.AssemblyStopsAtTheFirstError :=
  fun _ _ _ _ h => assembleTokens_of_error h

/-- Settles O45: each text assembled. -/
theorem assemblerGivesTheSpecExamples : Obligations.AssemblerGivesTheSpecExamples :=
  ⟨by decide, by decide, by decide, by decide, by decide, by decide⟩

end Sys2Proof.Machine
end

section
/-! From source text to a finished run: `LOAD_CONSTANT R<r>, #<v>` (30_encoding.md R85, R86, R91, R92;
95_test_vectors.md S4). -/

namespace Sys2Proof.Machine

variable {n : Nat} {c : Char} {tok cur : Token}

/-! ## Tokens (R85) -/

theorem splitTokens_append (h : ∀ c ∈ tok, isSpaceChar c = false) (cs : List Char) (cur : Token) :
    splitTokens (tok ++ cs) cur = splitTokens cs (cur ++ tok) := by
  induction tok generalizing cur with
  | nil => rw [List.nil_append, List.append_nil]
  | cons c tok ih =>
    obtain ⟨hc, htok⟩ := List.forall_mem_cons.1 h
    rw [List.cons_append, splitTokens, hc, if_neg (by decide), ih htok, List.append_assoc, List.singleton_append]

theorem flushToken_of_ne_nil (h : cur ≠ []) : flushToken cur = [cur] := if_neg h

theorem tokenize_token (hne : tok ≠ []) (h : ∀ c ∈ tok, isSpaceChar c = false) : tokenize tok = [tok] := by
  have hsplit := splitTokens_append h [] []
  rwa [List.append_nil, List.nil_append, splitTokens, flushToken_of_ne_nil hne] at hsplit

theorem tokenize_token_space (hne : tok ≠ []) (h : ∀ c ∈ tok, isSpaceChar c = false) (cs : List Char) :
    tokenize (tok ++ ' ' :: cs) = tok :: tokenize cs := by
  rw [tokenize, splitTokens_append h, List.nil_append, splitTokens, if_pos (by decide), flushToken_of_ne_nil hne]
  rfl

/-! ## Decimal numbers (R91) -/

theorem isDigitChar_of_mem_toDigits (h : c ∈ Nat.toDigits 10 n) : isDigitChar c = true := by
  have hdigit := Nat.isDigit_of_mem_toDigits (by decide) (by decide) h
  simpa [Char.isDigit, isDigitChar, UInt32.le_iff_toNat_le] using hdigit

theorem isSpaceChar_of_mem_toDigits (h : c ∈ Nat.toDigits 10 n) : isSpaceChar c = false := by
  have hdigit := isDigitChar_of_mem_toDigits h
  simp only [isDigitChar, Bool.and_eq_true, decide_eq_true_eq] at hdigit
  simp only [isSpaceChar, Bool.or_eq_false_iff, beq_eq_false_iff_ne, Bool.and_eq_false_iff, decide_eq_false_iff_not]
  omega

/-- Reading a number's decimal digits gives the number. -/
theorem leadingNat_toDigits (n : Nat) : leadingNat (Nat.toDigits 10 n) = some n := by
  have htake : (Nat.toDigits 10 n).takeWhile isDigitChar = Nat.toDigits 10 n :=
    List.takeWhile_eq_self_iff.2 fun _ => isDigitChar_of_mem_toDigits
  rw [leadingNat, htake]
  cases hd : Nat.toDigits 10 n with
  | nil => exact absurd hd Nat.toDigits_ne_nil
  | cons d ds =>
    refine congrArg some ?_
    rw [← hd, digitsValue]
    exact Nat.ofDigitChars_ten_toDigits

/-! ## Operands (R90, R91, R92) -/

theorem stripPrefix_append (p t : Token) : stripPrefix p (p ++ t) = some t := by
  induction p with
  | nil => cases t <;> rfl
  | cons c p ih => rw [List.cons_append, stripPrefix, if_pos rfl, ih]

theorem stripSuffix_append (t p : Token) : stripSuffix p (t ++ p) = some t := by
  rw [stripSuffix, List.reverse_append, stripPrefix_append, Option.map_some, List.reverse_reverse]

theorem fitField_strict_toNat {width : Nat} (v : BitVec width) : fitField .strict width v.toNat = some v := by
  rw [fitField, if_pos v.isLt, BitVec.ofNat_toNat, BitVec.setWidth_eq]

/-- An operand written as its sigil, the decimal digits of a field's value and its punctuation resolves to that value. -/
theorem operandField_toDigits {width : Nat} (lead trail : Token) (v : BitVec width) :
    operandField .strict width lead trail (lead ++ (Nat.toDigits 10 v.toNat ++ trail)) = some v := by
  rw [operandField, operandNat, stripPrefix_append, Option.bind_some, stripSuffix_append, Option.bind_some,
    leadingNat_toDigits, Option.bind_some, fitField_strict_toNat]

/-! ## The text of a LOAD_CONSTANT (R86) -/

/-- The operand token `R<r>,`. -/
def destinationToken (r : Nat) : Token := ['R'] ++ (Nat.toDigits 10 r ++ [','])

/-- The operand token `#<v>`. -/
def immediateToken (v : Nat) : Token := ['#'] ++ (Nat.toDigits 10 v ++ [])

theorem sourceLoadConstant_eq (r v : Nat) :
    sourceLoadConstant r v = mnemonicLoadConstant ++ ' ' :: (destinationToken r ++ ' ' :: immediateToken v) := by
  simp [sourceLoadConstant, destinationToken, immediateToken]

theorem not_space_of_mem_mnemonicLoadConstant : ∀ c ∈ mnemonicLoadConstant, isSpaceChar c = false := by
  simp [mnemonicLoadConstant, isSpaceChar]

theorem destinationToken_ne_nil (r : Nat) : destinationToken r ≠ [] := List.cons_ne_nil _ _

theorem immediateToken_ne_nil (v : Nat) : immediateToken v ≠ [] := List.cons_ne_nil _ _

theorem not_space_of_mem_destinationToken (r : Nat) : ∀ c ∈ destinationToken r, isSpaceChar c = false := by
  simp only [destinationToken, List.forall_mem_append, List.forall_mem_singleton]
  exact ⟨by decide, fun _ => isSpaceChar_of_mem_toDigits, by decide⟩

theorem not_space_of_mem_immediateToken (v : Nat) : ∀ c ∈ immediateToken v, isSpaceChar c = false := by
  simp only [immediateToken, List.forall_mem_append, List.forall_mem_singleton]
  exact ⟨by decide, fun _ => isSpaceChar_of_mem_toDigits, by simp⟩

theorem tokenize_sourceLoadConstant (r v : Nat) :
    tokenize (sourceLoadConstant r v) = [mnemonicLoadConstant, destinationToken r, immediateToken v] := by
  rw [sourceLoadConstant_eq, tokenize_token_space (by decide) not_space_of_mem_mnemonicLoadConstant,
    tokenize_token_space (destinationToken_ne_nil r) (not_space_of_mem_destinationToken r),
    tokenize_token (immediateToken_ne_nil v) (not_space_of_mem_immediateToken v)]

theorem parseInstr_loadConstant (r : RegField) (v : BitVec 26) :
    parseInstr .strict mnemonicLoadConstant [destinationToken r.toNat, immediateToken v.toNat] =
      some (.loadConstant r v) := by
  rw [parseInstr, if_pos rfl, parseLoadConstant, destinationToken, immediateToken, operandField_toDigits,
    operandField_toDigits]
  rfl

theorem assemble_sourceLoadConstant (r : RegField) (v : BitVec 26) :
    assemble (sourceLoadConstant r.toNat v.toNat) =
      { binary := encodeBytes (.loadConstant r v), log := [.loadConstant r v], error := none } := by
  have hround := assembleTokens_of_parseInstr (rest := []) 2 (parseInstr_loadConstant r v)
  rw [assemble, assembleWith, tokenize_sourceLoadConstant]
  exact hround

/-! ## The run of its binary -/

theorem fetch_boot_encodeBytes {h : HostSetup} {i : Instr} (hstream : h.stream = encodeBytes i) :
    fetch (boot h) = .word (encode i) := by
  have hw := fetch_eq_word_of_pc (boot_pc h) (stream := encodeBytes i) hstream (length_encodeBytes i).ge
  exact hw.trans (congrArg Fetched.word (wordOfBytes_wordBytes (encode i)))

/-- Six bytes are one step, and the run ends in the state after it. -/
theorem runToEnd_of_one_word {h : HostSetup} {s t : State} (hstart : startRun h = some s)
    (hlen : h.stream.length = 6) (hstep : step s = .next t) : runToEnd h = .finished t (resultReport t) := by
  obtain ⟨-, -, -, u, hrun, -, hend⟩ := aRunExecutesEveryWordOnceInOrder h s 1 hstart hlen
  obtain ⟨u', hu', hrun'⟩ := runSteps_succ_iff.1 hrun
  obtain rfl : t = u' := Host.Outcome.next.inj (hstep.symm.trans hu')
  obtain rfl : t = u := Option.some.inj hrun'
  exact hend

/-- Settles O48: the text assembles to the instruction's word, and the run of that word is one step from the reset
values. -/
theorem assembledLoadConstantRunsAsWritten : Obligations.AssembledLoadConstantRunsAsWritten := by
  intro r v h start hstart hbinary
  have hasm := assemble_sourceLoadConstant r v
  have hstream : h.stream = encodeBytes (.loadConstant r v) := hbinary.trans (congrArg AsmResult.binary hasm)
  obtain ⟨-, rfl⟩ := startRun_some_iff.1 hstart
  have hstep := step_of_encoded_loadConstant (fetch_boot_encodeBytes hstream)
  obtain ⟨hslots, hcells, -, -, hconds⟩ := Effect.apply_writeReg_frame r
    (immediate (BitVec.ofNat 26 (v.toNat % 2 ^ Config.immBits h.params.decodeMode))) (boot h)
  refine ⟨hasm, _, _, runToEnd_of_one_word hstart (congrArg List.length hstream) hstep, ?_, ?_, ?_, fun k hk => ?_,
    fun a => ?_⟩
  · rw [State.retire_pc, Effect.apply_pc, boot_pc]
  · rw [State.retire_conditions]
    exact hconds
  · rw [readReg_retire, Effect.readReg_apply_writeReg, toNat_immediate_truncated, boot_params]
  · rw [State.retire_x]
    exact (hslots k hk).trans (getSlot_boot h k)
  · rw [readCell_retire]
    exact hcells a

end Sys2Proof.Machine
end
